-- ==== Sys2Proof/Word.lean ====
section
/-! DEFINITION. The widths of the go-chip8 CORE (spec/00_scope.md R4, R6): bytes, 16-bit words and the
12-bit address field. All values are unsigned; the machine sign-extends nothing. -/

namespace Sys2Proof

/-- A general register, a timer or a memory cell: XLEN = 8 bits (R4, R11, R17, R30). -/
abbrev Byte := BitVec 8

/-- The program counter, the index register, a stack entry or an opcode: ALEN = ILEN = 16 bits (R4). -/
abbrev Word := BitVec 16

/-- The `nnn` field of an opcode: 12 bits (R51). -/
abbrev Addr12 := BitVec 12

/-- The number of a general register V0 to VF (R11). -/
abbrev Reg := Fin 16

/-- VF, the register that doubles as the flag (R12). -/
abbrev vF : Reg := 15

end Sys2Proof
end

