-- ==== Sys2Proof/Config.lean ====
section
/-! DEFINITION. What one implementation fixes. The sizes are the fixed parameters of spec/00_scope.md R4.
The open parameters of R5 and the per-cycle inputs of R20 are constants without a body: nothing in Lean can
evaluate one, so a claim holds whatever its value is. -/

namespace Sys2Proof.Config

/-- MEM_SIZE: bytes of memory (R4, R30). -/
abbrev memSize : Nat := 4096

/-- PROG_BASE: load address and first instruction after reset (R4, R161). -/
abbrev progBase : Nat := 0x200

/-- The largest image the loader accepts: memory capacity less PROG_BASE (R165). -/
abbrev maxImage : Nat := 3584

/-- STACK_DEPTH: entries of the call stack (R4, R16). -/
abbrev stackDepth : Nat := 16

/-- NGLYPH times GLYPH_BYTES: the bytes of the font table at FONT_BASE = 0 (R4, R37). -/
abbrev fontSize : Nat := 80

/-- DISP_W (R5, R41). -/
abbrev dispW : Nat := 64

/-- DISP_H (R5, R41). -/
abbrev dispH : Nat := 32

/-- The two values of the open parameter ShiftSource (R5, R88). -/
inductive ShiftSource where
  /-- 8xy6 and 8xyE shift Vx in place; y is ignored. -/
  | vx
  /-- 8xy6 and 8xyE shift Vy into Vx. -/
  | vy
  deriving DecidableEq, Repr, Inhabited

/-- A pixel of the display grid: (column, row) (R41). -/
abbrev Pixel := Fin 64 × Fin 32

/-- FONT: the 80 glyph bytes placed at 0x000 to 0x04F by reset (R5, R37, U11). Free; log 1. -/
opaque font : Vector Byte 80

/-- ShiftSource: which register 8xy6 and 8xyE shift (R5, R88, R90, U6). Free; log 2. -/
opaque shiftSource : ShiftSource

/-- DisplayMap outside the 64×32 grid: the pixel a coordinate beyond the edge stands for, or none (R5, R41,
U1). Free; log 3. -/
opaque offGrid : Nat → Nat → Option Pixel

/-- KeyPick: the key an implementation prefers for each set of pressed keys; used only where it is one of two or
more pressed keys (R5, R122, U7). Free; log 4. -/
opaque keyChoice : Word → Fin 16

/-- The random byte of draw number n, where the host has queued none (R45, U10). Free; log 5. -/
opaque randomByte : Nat → Byte

/-- The key vector of cycle number n, where the host has queued none (R43, U13). Free; log 6. -/
opaque keyVector : Nat → Word

/-- The reference value of FONT that spec/95_test_vectors.md uses (R37; the spec marks it general knowledge).
The model does not use it: tests may. -/
def referenceFont : List Byte :=
  [0xF0, 0x90, 0x90, 0x90, 0xF0, 0x20, 0x60, 0x20, 0x20, 0x70] ++
  [0xF0, 0x10, 0xF0, 0x80, 0xF0, 0xF0, 0x10, 0xF0, 0x10, 0xF0] ++
  [0x90, 0x90, 0xF0, 0x10, 0x10, 0xF0, 0x80, 0xF0, 0x10, 0xF0] ++
  [0xF0, 0x80, 0xF0, 0x90, 0xF0, 0xF0, 0x10, 0x20, 0x40, 0x40] ++
  [0xF0, 0x90, 0xF0, 0x90, 0xF0, 0xF0, 0x90, 0xF0, 0x10, 0xF0] ++
  [0xF0, 0x90, 0xF0, 0x90, 0x90, 0xE0, 0x90, 0xE0, 0x90, 0xE0] ++
  [0xF0, 0x80, 0x80, 0x80, 0xF0, 0xE0, 0x90, 0x90, 0x90, 0xE0] ++
  [0xF0, 0x80, 0xF0, 0x80, 0xF0, 0xF0, 0x80, 0xF0, 0x80, 0x80]

end Sys2Proof.Config
end

