-- ==== Sys2Proof/Syntax.lean ====
section
/-! DEFINITION. The 34 instructions (spec/30_encoding.md R56), one constructor per row of
spec/opcode_table.json, in the table's order. Operands are the fields of R51: a register number is a name out of
sixteen, `kk` and `nnn` are the opcode's bits, and the sprite height `n` is a count, bounded by WellFormed. -/

namespace Sys2Proof

/-- An instruction (R56). -/
inductive Instr where
  /-- 00E0, R110. -/
  | cls
  /-- 00EE, R70. -/
  | ret
  /-- 1nnn, R71. -/
  | jp (nnn : Addr12)
  /-- 2nnn, R72. -/
  | call (nnn : Addr12)
  /-- 3xkk, R74. -/
  | seImm (x : Reg) (kk : Byte)
  /-- 4xkk, R75. -/
  | sneImm (x : Reg) (kk : Byte)
  /-- 5xy0, R76. -/
  | seReg (x y : Reg)
  /-- 6xkk, R80. -/
  | ldImm (x : Reg) (kk : Byte)
  /-- 7xkk, R81. -/
  | addImm (x : Reg) (kk : Byte)
  /-- 8xy0, R82. -/
  | ldReg (x y : Reg)
  /-- 8xy1, R83. -/
  | or (x y : Reg)
  /-- 8xy2, R84. -/
  | and (x y : Reg)
  /-- 8xy3, R85. -/
  | xor (x y : Reg)
  /-- 8xy4, R86. -/
  | addReg (x y : Reg)
  /-- 8xy5, R87. -/
  | sub (x y : Reg)
  /-- 8xy6, R88. -/
  | shr (x y : Reg)
  /-- 8xy7, R89. -/
  | subn (x y : Reg)
  /-- 8xyE, R90. -/
  | shl (x y : Reg)
  /-- 9xy0, R77. -/
  | sneReg (x y : Reg)
  /-- Annn, R100. -/
  | ldI (nnn : Addr12)
  /-- Bnnn, R73. -/
  | jpV0 (nnn : Addr12)
  /-- Cxkk, R91. -/
  | rnd (x : Reg) (kk : Byte)
  /-- Dxyn, R111. -/
  | drw (x y : Reg) (n : Nat)
  /-- Ex9E, R120. -/
  | skp (x : Reg)
  /-- ExA1, R121. -/
  | sknp (x : Reg)
  /-- Fx07, R123. -/
  | ldVxDt (x : Reg)
  /-- Fx0A, R122. -/
  | ldVxK (x : Reg)
  /-- Fx15, R124. -/
  | ldDtVx (x : Reg)
  /-- Fx18, R125. -/
  | ldStVx (x : Reg)
  /-- Fx1E, R101. -/
  | addI (x : Reg)
  /-- Fx29, R102. -/
  | ldF (x : Reg)
  /-- Fx33, R103. -/
  | ldB (x : Reg)
  /-- Fx55, R104. -/
  | ldMemVx (x : Reg)
  /-- Fx65, R105. -/
  | ldVxMem (x : Reg)
  deriving DecidableEq, Repr

end Sys2Proof
end

