-- ==== Sys2Proof/WellFormed.lean ====
section
/-! DEFINITION. Which instructions and program images the encoding and the loader admit. Register numbers, `kk`
and `nnn` are bounded by their types, so an instruction has one check, the sprite height; an image has one, its
length. -/

namespace Sys2Proof

/-- The operands fit their fields: `n` of Dxyn is a row count 0 to 15 (spec/30_encoding.md R53). -/
def Instr.wellFormed : Instr → Bool
  | .drw _ _ n => n < 16
  | _ => true

/-- An image fits between PROG_BASE and the end of memory (spec/70_reset_and_hazards.md R165). -/
def imageFits (image : List Byte) : Bool :=
  image.length ≤ Config.maxImage

end Sys2Proof
end

