-- ==== Sys2Proof/Decode.lean ====
section
/-! DEFINITION. The decoder of spec/30_encoding.md R54 (fields R51, formats R52), total on any bytes and rejecting
by name, and the encoder written from the patterns of R52 and R56. -/

namespace Sys2Proof

/-! ### Fields (R51) -/

/-- `fam`, bits 15:12. -/
def famOf (op : Word) : BitVec 4 := op.extractLsb' 12 4

/-- Bits 11:8 as four bits: the `x` field, the top nibble of `nnn`, or ignored. -/
def nibble2 (op : Word) : BitVec 4 := op.extractLsb' 8 4

/-- Bits 7:4 as four bits. -/
def nibble1 (op : Word) : BitVec 4 := op.extractLsb' 4 4

/-- `n`, bits 3:0 as four bits. -/
def nibble0 (op : Word) : BitVec 4 := op.extractLsb' 0 4

/-- `kk`, bits 7:0. -/
def kkOf (op : Word) : Byte := op.extractLsb' 0 8

/-- `nnn`, bits 11:0. -/
def nnnOf (op : Word) : Addr12 := op.extractLsb' 0 12

/-- `x`, bits 11:8, as a register number. -/
def xOf (op : Word) : Reg := (nibble2 op).toFin

/-- `y`, bits 7:4, as a register number. -/
def yOf (op : Word) : Reg := (nibble1 op).toFin

/-- `n`, bits 3:0, as a row count. -/
def nOf (op : Word) : Nat := (nibble0 op).toNat

/-! ### Decode (R54) -/

/-- Family 0x0: the low byte is the whole key, bits 11:8 are ignored (R59; log 12). -/
def decodeFam0 (op : Word) : Option Instr :=
  match (kkOf op).toNat with
  | 0xE0 => some .cls
  | 0xEE => some .ret
  | _ => none

/-- Family 0x8: the low nibble selects the operation (R54, R57). -/
def decodeFam8 (op : Word) : Option Instr :=
  match (nibble0 op).toNat with
  | 0x0 => some (.ldReg (xOf op) (yOf op))
  | 0x1 => some (.or (xOf op) (yOf op))
  | 0x2 => some (.and (xOf op) (yOf op))
  | 0x3 => some (.xor (xOf op) (yOf op))
  | 0x4 => some (.addReg (xOf op) (yOf op))
  | 0x5 => some (.sub (xOf op) (yOf op))
  | 0x6 => some (.shr (xOf op) (yOf op))
  | 0x7 => some (.subn (xOf op) (yOf op))
  | 0xE => some (.shl (xOf op) (yOf op))
  | _ => none

/-- Family 0xE: the low byte selects the operation (R54). -/
def decodeFamE (op : Word) : Option Instr :=
  match (kkOf op).toNat with
  | 0x9E => some (.skp (xOf op))
  | 0xA1 => some (.sknp (xOf op))
  | _ => none

/-- Family 0xF: the low byte selects the operation (R54, R57). -/
def decodeFamF (op : Word) : Option Instr :=
  match (kkOf op).toNat with
  | 0x07 => some (.ldVxDt (xOf op))
  | 0x0A => some (.ldVxK (xOf op))
  | 0x15 => some (.ldDtVx (xOf op))
  | 0x18 => some (.ldStVx (xOf op))
  | 0x1E => some (.addI (xOf op))
  | 0x29 => some (.ldF (xOf op))
  | 0x33 => some (.ldB (xOf op))
  | 0x55 => some (.ldMemVx (xOf op))
  | 0x65 => some (.ldVxMem (xOf op))
  | _ => none

/-- The instruction an opcode selects, or none where it is Unrecognised (R54, R58). -/
def decodeWord (op : Word) : Option Instr :=
  match (famOf op).toNat with
  | 0x0 => decodeFam0 op
  | 0x1 => some (.jp (nnnOf op))
  | 0x2 => some (.call (nnnOf op))
  | 0x3 => some (.seImm (xOf op) (kkOf op))
  | 0x4 => some (.sneImm (xOf op) (kkOf op))
  | 0x5 => if nibble0 op = 0 then some (.seReg (xOf op) (yOf op)) else none
  | 0x6 => some (.ldImm (xOf op) (kkOf op))
  | 0x7 => some (.addImm (xOf op) (kkOf op))
  | 0x8 => decodeFam8 op
  | 0x9 => if nibble0 op = 0 then some (.sneReg (xOf op) (yOf op)) else none
  | 0xA => some (.ldI (nnnOf op))
  | 0xB => some (.jpV0 (nnnOf op))
  | 0xC => some (.rnd (xOf op) (kkOf op))
  | 0xD => some (.drw (xOf op) (yOf op) (nOf op))
  | 0xE => decodeFamE op
  | 0xF => decodeFamF op
  | _ => none

/-- Two bytes make an opcode, the byte at the lower address in bits 15:8 (R50; spec/20_memory.md R32, R42). -/
def opcodeOf (hi lo : Byte) : Word := hi ++ lo

/-- Why bytes are no instruction. -/
inductive DecodeReject where
  /-- The opcode matches no row: the non-fatal DecodeError of R58. -/
  | unrecognised (opcode : Word)
  /-- Fewer than two bytes are left. -/
  | truncated
  deriving DecidableEq, Repr

/-- Reads one instruction off the front of a byte stream (R50). -/
def decode : List Byte → Except DecodeReject (Instr × List Byte)
  | hi :: lo :: rest =>
    match decodeWord (opcodeOf hi lo) with
    | some i => .ok (i, rest)
    | none => .error (.unrecognised (opcodeOf hi lo))
  | _ => .error .truncated

/-- The decoder on a word numbered as spec/opcode_table.json numbers it: every row is one 16-bit word whose first
byte in memory is bits 15:8. -/
def decodeTableWord (nbits w : Nat) : Option Instr :=
  let op : Word := BitVec.ofNat 16 (w % 2 ^ nbits)
  match decode [op.extractLsb' 8 8, op.extractLsb' 0 8] with
  | .ok (i, _) => some i
  | .error _ => none

/-! ### Encode (R52, R56) -/

/-- A register number in its four-bit field. -/
def regBits (r : Reg) : BitVec 4 := BitVec.ofFin r

/-- Format NNN. -/
def packNnn (fam : BitVec 4) (nnn : Addr12) : Word := fam ++ nnn

/-- Formats XKK, X and (with a zero second nibble) FIXED. -/
def packXkk (fam x : BitVec 4) (kk : Byte) : Word := fam ++ (x ++ kk)

/-- Formats XY and XYN. -/
def packXyn (fam x y n : BitVec 4) : Word := fam ++ (x ++ (y ++ n))

/-- The opcode of an instruction. The ignored bits 11:8 of CLS and RET are written as 0 (R59; log 12). -/
def encode : Instr → Word
  | .cls => packXkk 0x0 0 0xE0
  | .ret => packXkk 0x0 0 0xEE
  | .jp nnn => packNnn 0x1 nnn
  | .call nnn => packNnn 0x2 nnn
  | .seImm x kk => packXkk 0x3 (regBits x) kk
  | .sneImm x kk => packXkk 0x4 (regBits x) kk
  | .seReg x y => packXyn 0x5 (regBits x) (regBits y) 0x0
  | .ldImm x kk => packXkk 0x6 (regBits x) kk
  | .addImm x kk => packXkk 0x7 (regBits x) kk
  | .ldReg x y => packXyn 0x8 (regBits x) (regBits y) 0x0
  | .or x y => packXyn 0x8 (regBits x) (regBits y) 0x1
  | .and x y => packXyn 0x8 (regBits x) (regBits y) 0x2
  | .xor x y => packXyn 0x8 (regBits x) (regBits y) 0x3
  | .addReg x y => packXyn 0x8 (regBits x) (regBits y) 0x4
  | .sub x y => packXyn 0x8 (regBits x) (regBits y) 0x5
  | .shr x y => packXyn 0x8 (regBits x) (regBits y) 0x6
  | .subn x y => packXyn 0x8 (regBits x) (regBits y) 0x7
  | .shl x y => packXyn 0x8 (regBits x) (regBits y) 0xE
  | .sneReg x y => packXyn 0x9 (regBits x) (regBits y) 0x0
  | .ldI nnn => packNnn 0xA nnn
  | .jpV0 nnn => packNnn 0xB nnn
  | .rnd x kk => packXkk 0xC (regBits x) kk
  | .drw x y n => packXyn 0xD (regBits x) (regBits y) (BitVec.ofNat 4 n)
  | .skp x => packXkk 0xE (regBits x) 0x9E
  | .sknp x => packXkk 0xE (regBits x) 0xA1
  | .ldVxDt x => packXkk 0xF (regBits x) 0x07
  | .ldVxK x => packXkk 0xF (regBits x) 0x0A
  | .ldDtVx x => packXkk 0xF (regBits x) 0x15
  | .ldStVx x => packXkk 0xF (regBits x) 0x18
  | .addI x => packXkk 0xF (regBits x) 0x1E
  | .ldF x => packXkk 0xF (regBits x) 0x29
  | .ldB x => packXkk 0xF (regBits x) 0x33
  | .ldMemVx x => packXkk 0xF (regBits x) 0x55
  | .ldVxMem x => packXkk 0xF (regBits x) 0x65

/-- The two bytes of an instruction as memory holds them, high byte first (R42, R50). -/
def encodeBytes (i : Instr) : List Byte :=
  [(encode i).extractLsb' 8 8, (encode i).extractLsb' 0 8]

/-- A row of the instruction list R56: an opcode `op` is the instruction exactly when `op &&& mask = pattern`. -/
structure Row where
  pattern : Word
  mask : Word
  deriving DecidableEq, Repr

/-- The `match` and `mask` columns of R56 for each instruction. -/
def Instr.row : Instr → Row
  | .cls => ⟨0x00E0, 0xF0FF⟩
  | .ret => ⟨0x00EE, 0xF0FF⟩
  | .jp _ => ⟨0x1000, 0xF000⟩
  | .call _ => ⟨0x2000, 0xF000⟩
  | .seImm _ _ => ⟨0x3000, 0xF000⟩
  | .sneImm _ _ => ⟨0x4000, 0xF000⟩
  | .seReg _ _ => ⟨0x5000, 0xF00F⟩
  | .ldImm _ _ => ⟨0x6000, 0xF000⟩
  | .addImm _ _ => ⟨0x7000, 0xF000⟩
  | .ldReg _ _ => ⟨0x8000, 0xF00F⟩
  | .or _ _ => ⟨0x8001, 0xF00F⟩
  | .and _ _ => ⟨0x8002, 0xF00F⟩
  | .xor _ _ => ⟨0x8003, 0xF00F⟩
  | .addReg _ _ => ⟨0x8004, 0xF00F⟩
  | .sub _ _ => ⟨0x8005, 0xF00F⟩
  | .shr _ _ => ⟨0x8006, 0xF00F⟩
  | .subn _ _ => ⟨0x8007, 0xF00F⟩
  | .shl _ _ => ⟨0x800E, 0xF00F⟩
  | .sneReg _ _ => ⟨0x9000, 0xF00F⟩
  | .ldI _ => ⟨0xA000, 0xF000⟩
  | .jpV0 _ => ⟨0xB000, 0xF000⟩
  | .rnd _ _ => ⟨0xC000, 0xF000⟩
  | .drw _ _ _ => ⟨0xD000, 0xF000⟩
  | .skp _ => ⟨0xE09E, 0xF0FF⟩
  | .sknp _ => ⟨0xE0A1, 0xF0FF⟩
  | .ldVxDt _ => ⟨0xF007, 0xF0FF⟩
  | .ldVxK _ => ⟨0xF00A, 0xF0FF⟩
  | .ldDtVx _ => ⟨0xF015, 0xF0FF⟩
  | .ldStVx _ => ⟨0xF018, 0xF0FF⟩
  | .addI _ => ⟨0xF01E, 0xF0FF⟩
  | .ldF _ => ⟨0xF029, 0xF0FF⟩
  | .ldB _ => ⟨0xF033, 0xF0FF⟩
  | .ldMemVx _ => ⟨0xF055, 0xF0FF⟩
  | .ldVxMem _ => ⟨0xF065, 0xF0FF⟩

end Sys2Proof
end

