-- ==== Sys2Proof/Machine/State.lean ====
section
/-! DEFINITION. The state of the go-chip8 CORE as plain data (spec/10_state.md), its fatal faults and output
events (spec/60_exceptions.md R130), and the state after reset (R23, R160). -/

namespace Sys2Proof.Machine

/-- Whether an access was a read or a write: the second part of MemoryOutOfRange's info (R130). -/
inductive Access where
  | read
  | write
  deriving DecidableEq, Repr

/-- The fatal faults and the info each records (R130). They are not outcomes of a step: raising one is a next state
whose STATUS holds it (R131; log 7). -/
inductive FatalFault where
  /-- 2nnn with `SP = 16`; info: the pc of the 2nnn (R132). -/
  | stackOverflow (pc : Word)
  /-- 00EE with `SP = 0`; info: the pc of the 00EE (R133). -/
  | stackUnderflow (pc : Word)
  /-- A data access above 0x0FFF; info: the lowest offending address, read or write (R134, R107). -/
  | memoryOutOfRange (addr : Nat) (access : Access)
  /-- A fetch with `pc > 0x0FFE`; info: pc (R134). -/
  | fetchOutOfRange (pc : Word)
  /-- Ex9E or ExA1 with `V[x] > 15`; info: `V[x]` and pc (R135). -/
  | keyIndexOutOfRange (value : Byte) (pc : Word)
  deriving DecidableEq, Repr

/-- STATUS (R18). -/
inductive Status where
  | running
  | faulted (cause : FatalFault)
  deriving DecidableEq, Repr

/-- What the core sends to the host besides STATUS and the display. -/
inductive Event where
  /-- The report of an unrecognised opcode at an address (R136). -/
  | decodeError (opcode pc : Word)
  /-- The pulse on the audio port (R44, R147). -/
  | audioTrigger
  deriving DecidableEq, Repr

/-- The loader's failure: the length of an image that does not fit (R137, R165). -/
inductive LoadError where
  | tooLong (length : Nat)
  deriving DecidableEq, Repr

/-- The memory in canonical form: addresses strictly rising, all below 4096, and no entry equal to what an unlisted
address reads as (`Memory.wf`; log 10). -/
abbrev Memory := List Host.Cell

/-- The reference display: 32 rows, bit c of row r is `FB[r][c]` (R41). -/
abbrev Display := Vector (BitVec 64) 32

/-- Every piece of state spec/10_state.md gives the machine, and five fields of the model's own (the last five). -/
structure State where
  /-- V[0] to V[15] (R11, R12). -/
  v : Vector Byte 16
  /-- The index register I (R15). -/
  i : Word
  /-- The program counter (R14). -/
  pc : Word
  /-- SP, the number of stack entries in use (R16). -/
  sp : Fin 17
  /-- STACK[0] to STACK[15] (R16). -/
  stack : Vector Word 16
  /-- The delay timer DT (R17). -/
  dt : Byte
  /-- The sound timer ST (R17). -/
  st : Byte
  /-- STATUS (R18). -/
  status : Status
  /-- The memory (R30). -/
  mem : Memory
  /-- The reference display model's grid FB (R41). -/
  fb : Display
  /-- KEYS, the key vector of the cycle about to run, bit k for key k (R43). -/
  keys : Word
  /-- The model's own: key vectors the host has queued for the coming cycles (log 6). -/
  keyInputs : List Word
  /-- The model's own: completed running cycles, the argument of the free key vector (log 6). -/
  cycles : Nat
  /-- The model's own: random bytes the host has queued for the coming draws (log 5). -/
  randomInputs : List Byte
  /-- The model's own: draws taken, the argument of the free random byte (log 5). -/
  draws : Nat
  /-- The model's own: the events emitted so far, newest first (log 11). -/
  outputs : List Event
  deriving DecidableEq, Repr

/-- The reasons a step ends in `Outcome.fault`: none. R131 says what raising a fatal fault does to the state, so
raising one is a next state (`raise` in Machine/Ops.lean), and every other abnormal event is non-fatal (log 7). -/
inductive Fault : Type
  deriving DecidableEq, Repr

/-- The reasons a step is refused. -/
inductive Refusal where
  /-- Raised by an arm of `exec` that has no meaning yet; no arm is left so. Safe: no claim about such an
  instruction could be proved. -/
  | notModelled (mnemonic : String)
  deriving DecidableEq, Repr

/-- What an instruction or a step answers. -/
abbrev Result := Host.Outcome State Fault Refusal

/-- The state after reset (R23, R160). The memory lists nothing: an unlisted address reads as FONT at 0x000 to 0x04F
and as 0x00 elsewhere. KEYS has no reset value in the core ("set by the host"): it is the free vector of cycle 0
(log 6). -/
def State.reset : State where
  v := Vector.replicate 16 0
  i := 0
  pc := 0x0200
  sp := 0
  stack := Vector.replicate 16 0
  dt := 0
  st := 0
  status := .running
  mem := []
  fb := Vector.replicate 32 0
  keys := Config.keyVector 0
  keyInputs := []
  cycles := 0
  randomInputs := []
  draws := 0
  outputs := []

end Sys2Proof.Machine
end

