-- ==== Sys2Proof/Machine/Ops.lean ====
section
/-! DEFINITION. The named operations over memory and state: reading and writing memory, the register accessors,
raising a fatal fault, the range check before an access, the stack, fetch, and the ports. -/

namespace Sys2Proof.Machine

/-! ### Memory (spec/20_memory.md R30 to R39) -/

/-- What an address that nothing has written reads as: FONT at 0x000 to 0x04F, 0x00 elsewhere (R23, R37; log 1). -/
def Memory.background (a : Nat) : Byte :=
  if h : a < 80 then Config.font[a] else 0

/-- The listed value of an address. -/
def Memory.find : Memory → Nat → Option Byte
  | [], _ => none
  | (b, w) :: m, a => if a = b then some w else Memory.find m a

/-- `mem[a]`. -/
def Memory.read (m : Memory) (a : Nat) : Byte :=
  (m.find a).getD (Memory.background a)

/-- Lists `a` with value `w`, keeping the addresses rising. -/
def Memory.insert : Memory → Nat → Byte → Memory
  | [], a, w => [(a, w)]
  | (b, u) :: m, a, w =>
    if a < b then (a, w) :: (b, u) :: m
    else if a = b then (a, w) :: m
    else (b, u) :: Memory.insert m a w

/-- Unlists `a`. -/
def Memory.unlist : Memory → Nat → Memory
  | [], _ => []
  | (b, u) :: m, a => if a = b then Memory.unlist m a else (b, u) :: Memory.unlist m a

/-- `mem[a] <- w`: one cell changes (R34). -/
def Memory.write (m : Memory) (a : Nat) (w : Byte) : Memory :=
  if w = Memory.background a then m.unlist a else m.insert a w

/-- Writes bytes at `a`, `a + 1`, … in ascending order (R38). -/
def Memory.writeBytes : Memory → Nat → List Byte → Memory
  | m, _, [] => m
  | m, a, w :: ws => Memory.writeBytes (m.write a w) (a + 1) ws

/-- Reads `count` bytes at `a`, `a + 1`, … in ascending order (R38). -/
def Memory.readBytes (m : Memory) : Nat → Nat → List Byte
  | _, 0 => []
  | a, count + 1 => m.read a :: Memory.readBytes m (a + 1) count

/-- The listed addresses rise strictly from `lo`, lie below 4096, and no entry equals what an unlisted address
reads as. -/
def Memory.wfFrom : Nat → Memory → Bool
  | _, [] => true
  | lo, (b, w) :: m =>
    decide (lo ≤ b) && decide (b < 4096) && !decide (w = Memory.background b) && Memory.wfFrom (b + 1) m

/-- The canonical form (log 10). -/
def Memory.wf (m : Memory) : Bool := Memory.wfFrom 0 m

/-! ### Registers (spec/10_state.md R11 to R17) -/

/-- `V[r]`. -/
def State.getV (s : State) (r : Reg) : Byte := s.v[r]

/-- `V[r] <- w`. No register is hard-wired (R11). -/
def State.setV (s : State) (r : Reg) (w : Byte) : State := { s with v := s.v.set r w }

/-- `I <- w`. -/
def State.setI (s : State) (w : Word) : State := { s with i := w }

/-- `pc <- w`. -/
def State.setPc (s : State) (w : Word) : State := { s with pc := w }

/-- `DT <- w`. -/
def State.setDt (s : State) (w : Byte) : State := { s with dt := w }

/-- `ST <- w`. -/
def State.setSt (s : State) (w : Byte) : State := { s with st := w }

/-- Replaces the memory. -/
def State.setMem (s : State) (m : Memory) : State := { s with mem := m }

/-- Replaces the display grid. -/
def State.setFb (s : State) (d : Display) : State := { s with fb := d }

/-- `STATUS <- w`. -/
def State.setStatus (s : State) (w : Status) : State := { s with status := w }

/-- Sends an event to the host. -/
def State.emit (s : State) (e : Event) : State := { s with outputs := e :: s.outputs }

/-- `pc <- pc + 2`, the end of every instruction that does not say otherwise (spec/00_scope.md R8). -/
def State.advance (s : State) : State := s.setPc (s.pc + 2)

/-- `pc <- pc + 4` if the condition holds, else `pc <- pc + 2` (spec/40_control.md R78). -/
def State.skipIf (s : State) (c : Bool) : State := s.setPc (s.pc + if c then 4 else 2)

/-! ### Fatal faults (spec/60_exceptions.md R131) -/

/-- `raise F(info)`: nothing is written but `STATUS <- Faulted(F, info)`; pc stays at the instruction. The rest of the
cycle is abandoned because `endCycle` does nothing to a faulted state. Only reset recovers. -/
def raise (f : FatalFault) (s : State) : Result := .next (s.setStatus (.faulted f))

/-- The codes of the fatal faults (R130). -/
def FatalFault.code : FatalFault → Nat
  | .stackOverflow _ => 1
  | .stackUnderflow _ => 2
  | .memoryOutOfRange _ _ => 3
  | .fetchOutOfRange _ => 4
  | .keyIndexOutOfRange _ _ => 5

/-- The code of the non-fatal DecodeError; the audio pulse is no error and has none (R130). -/
def Event.code : Event → Option Nat
  | .decodeError _ _ => some 16
  | .audioTrigger => none

/-- The code of LoadError (R130). -/
def LoadError.code : LoadError → Nat
  | .tooLong _ => 32

/-- The lowest of the addresses `first`, …, `first + count - 1` that is above 0x0FFF, if one is
(spec/42_index_memory.md R107). -/
def rangeViolation (first count : Nat) : Option Nat :=
  if count = 0 ∨ first + count ≤ 0x1000 then none else some (max first 0x1000)

/-- Checks all addresses of an instruction before its first effect (R48), each as R33 and R34 check one: answers the
state after the instruction, or raises MemoryOutOfRange. -/
def guardRange (first count : Nat) (access : Access) (s after : State) : Result :=
  match rangeViolation first count with
  | none => .next after
  | some a => raise (.memoryOutOfRange a access) s

/-! ### The call stack (spec/10_state.md R16) -/

/-- `STACK[SP] <- w; SP <- SP + 1`, or none where the stack is full. -/
def State.push (s : State) (w : Word) : Option State :=
  if h : s.sp.val < 16 then
    some { s with stack := s.stack.set s.sp.val w, sp := ⟨s.sp.val + 1, by omega⟩ }
  else none

/-- `SP <- SP − 1; value <- STACK[SP]`, or none where the stack is empty. -/
def State.pop (s : State) : Option (Word × State) :=
  if h : 0 < s.sp.val then
    some (s.stack[s.sp.val - 1], { s with sp := ⟨s.sp.val - 1, by omega⟩ })
  else none

/-! ### Fetch (spec/20_memory.md R32) -/

/-- `Fetch(pc)`: the bytes at pc and pc + 1, high byte first, or FetchOutOfRange where pc is above 0x0FFE. -/
def fetch (s : State) : Except FatalFault Word :=
  if s.pc.toNat ≤ 0x0FFE then .ok (s.mem.read s.pc.toNat ++ s.mem.read (s.pc.toNat + 1))
  else .error (.fetchOutOfRange s.pc)

/-! ### The random port (spec/20_memory.md R45) -/

/-- `RandomByte()`: the byte the host has queued, else a free one, and the state with the draw taken (log 5). -/
def State.drawRandom (s : State) : Byte × State :=
  match s.randomInputs with
  | r :: rs => (r, { s with randomInputs := rs, draws := s.draws + 1 })
  | [] => (Config.randomByte s.draws, { s with draws := s.draws + 1 })

/-! ### The key port (spec/20_memory.md R43) -/

/-- `KeyPressed(k)`. -/
def keyPressed (keys : Word) (k : Fin 16) : Bool := keys.getLsbD k.val

/-- The keys 0 to 15 in order. -/
def allKeys : List (Fin 16) := [0, 1, 2, 3, 4, 5, 6, 7] ++ [8, 9, 10, 11, 12, 13, 14, 15]

/-- The set of pressed keys, in ascending order. -/
def pressedKeys (keys : Word) : List (Fin 16) := allKeys.filter (keyPressed keys)

/-- KeyPick for a given preference: the only pressed key, or the preferred one where it is pressed, or the lowest; none
where no key is pressed. Every function from non-empty sets of keys to a member is of this form
(spec/44_keys_timers.md R122; log 4). -/
def keyPickWith (choice : Word → Fin 16) (keys : Word) : Option (Fin 16) :=
  match pressedKeys keys with
  | [] => none
  | [k] => some k
  | k :: _ => some (if keyPressed keys (choice keys) then choice keys else k)

/-! ### The display port (spec/20_memory.md R40, R41) -/

/-- A DisplayMap: the pixel a coordinate pair stands for, or none (spec/00_scope.md R5). -/
abbrev DisplayMap := Nat → Nat → Option Config.Pixel

/-- The DisplayMap that keeps coordinates inside the grid and sends the others to `off` (log 3). -/
def displayMapWith (off : DisplayMap) : DisplayMap := fun x y =>
  if h : x < 64 ∧ y < 32 then some (⟨x, h.1⟩, ⟨y, h.2⟩) else off x y

/-- The named value `wrap` (R41). -/
def wrapMap : DisplayMap := fun x y =>
  some (⟨x % 64, Nat.mod_lt x (by decide)⟩, ⟨y % 32, Nat.mod_lt y (by decide)⟩)

/-- The named value `clip` (R41). -/
def clipMap : DisplayMap := displayMapWith fun _ _ => none

/-- This implementation's DisplayMap: free outside the grid (log 3). -/
def displayMap : DisplayMap := displayMapWith Config.offGrid

/-- `ClearDisplay()`: every pixel off. -/
def Display.clear : Display := Vector.replicate 32 0

/-- `FB[row][column]`. -/
def Display.pixel (d : Display) (p : Config.Pixel) : Bool := d[p.2].getLsbD p.1.val

/-- Inverts one pixel. -/
def Display.flip (d : Display) (p : Config.Pixel) : Display :=
  d.set p.2 (d[p.2] ^^^ BitVec.twoPow 64 p.1.val)

/-- `TogglePixel(x, y)`: inverts the pixel and answers its new state; a clipped pixel changes nothing and answers 1
(R41). -/
def Display.toggle (dm : DisplayMap) (d : Display) (x y : Nat) : Display × Bool :=
  match dm x y with
  | some p => (d.flip p, (d.flip p).pixel p)
  | none => (d, true)

/-! ### Outcomes -/

/-- Goes on with a next state; a fault or a refusal stands. -/
def onNext (f : State → State) : Result → Result
  | .next s => .next (f s)
  | .fault r => .fault r
  | .refused r => .refused r

/-! ### Reset by the host (spec/70_reset_and_hazards.md R160) -/

/-- `reset()` at any time the host chooses: the core is as `State.reset`; the host's own inputs and the model's own
fields stay, so no event is emitted (log 14). -/
def State.hostReset (s : State) : State :=
  { State.reset with
    keys := s.keys, keyInputs := s.keyInputs, cycles := s.cycles,
    randomInputs := s.randomInputs, draws := s.draws, outputs := s.outputs }

/-! ### The loader (spec/70_reset_and_hazards.md R165) -/

/-- `load(image)`: the host copies the image to 0x200, or fails with the length and writes nothing. -/
def State.load (image : List Byte) (s : State) : Except LoadError State :=
  if image.length ≤ Config.maxImage then .ok (s.setMem (s.mem.writeBytes Config.progBase image))
  else .error (.tooLong image.length)

end Sys2Proof.Machine
end

