-- ==== Sys2Proof/Machine/Cycle.lean ====
section
/-! DEFINITION. What a cycle does around its instruction (spec/60_exceptions.md R145): the decode error, the timer
unit, the audio trigger, and the host's next key vector. -/

namespace Sys2Proof.Machine

/-- The execute step of an unrecognised opcode (R136): a report and pc + 2, nothing else. -/
def unrecognised (op : Word) (s : State) : State := (s.emit (.decodeError op s.pc)).advance

/-- One timer's decrement, saturating at zero (R146). -/
def decTimer (t : Byte) : Byte := if t = 0 then 0 else t - 1

/-- `Tick()`: both timers (R146). -/
def tick (s : State) : State := (s.setDt (decTimer s.dt)).setSt (decTimer s.st)

/-- `beep`: the sound timer is 1 before the decrement (R146, R147). -/
def beep (s : State) : Bool := s.st == 1

/-- `if beep then AudioTrigger()` (R145, R147). -/
def pulseIf (b : Bool) (s : State) : State := if b then s.emit .audioTrigger else s

/-- The host presents the key vector of the next cycle: the one it has queued, else a free one (R43; log 6). -/
def nextKeys (s : State) : State :=
  match s.keyInputs with
  | k :: ks => { s with keys := k, keyInputs := ks, cycles := s.cycles + 1 }
  | [] => { s with keys := Config.keyVector (s.cycles + 1), cycles := s.cycles + 1 }

/-- The rest of the cycle after the execute step (R145, steps 3 to 5); a fatal fault abandons it (R131). -/
def endCycle (s : State) : State :=
  match s.status with
  | .running => nextKeys (pulseIf (beep s) (tick s))
  | .faulted _ => s

/-- A cycle request to a faulted core: no fetch, no tick, no port activity (R131). -/
def faultedCycle (s : State) : Result := .next s

/-- Stores a word where the next fetch reads it, high byte first. -/
def storeFetchWord (s : State) (op : Word) : State :=
  s.setMem (s.mem.writeBytes s.pc.toNat [op.extractLsb' 8 8, op.extractLsb' 0 8])

/-- A core that can fetch: running, with pc at 0x200 where it lay beyond the last fetchable address (log 15). -/
def readyToFetch (s : State) : State :=
  (s.setStatus .running).setPc (if s.pc.toNat ≤ 0x0FFE then s.pc else 0x0200)

end Sys2Proof.Machine
end

