-- ==== Sys2Proof/Machine/Operands.lean ====
section
/-! DEFINITION. The operand forms of spec/30_encoding.md R53: zero extension, the operand of a shift, the block of
registers, the digits of a byte, the key index and the rows of a sprite. -/

namespace Sys2Proof.Machine

/-- `zext_16(nnn)` (R53). -/
def zextAddr (nnn : Addr12) : Word := nnn.setWidth 16

/-- `zext_16(V[x])` (R53). -/
def zextByte (b : Byte) : Word := b.setWidth 16

/-- The register 8xy6 and 8xyE shift (spec/41_alu.md R88, R90). -/
def shiftReg : Config.ShiftSource → Reg → Reg → Reg
  | .vx, x, _ => x
  | .vy, _, y => y

/-- `V[0]`, …, `V[x]`: x + 1 registers (spec/42_index_memory.md R104). -/
def State.blockRegs (s : State) (x : Reg) : List Byte := s.v.toList.take (x.val + 1)

/-- The byte of memory that Fx65 loads into register `r` (R105); `I` is the value on entry. -/
def State.blockByte (s : State) (r : Nat) : Byte := s.mem.read (s.i.toNat + r)

/-- `for i = 0 to x do V[i] <- MemRead(I + i, 1)` (R105), ascending, over the registers listed. -/
def State.loadRegs (s : State) : List Reg → Vector Byte 16 → Vector Byte 16
  | [], v => v
  | r :: rs, v => State.loadRegs s rs (v.set r (s.blockByte r.val))

/-- The registers V0 to VF in order. -/
def allRegs : List Reg := [0, 1, 2, 3, 4, 5, 6, 7] ++ [8, 9, 10, 11, 12, 13, 14, 15]

/-- The hundreds, tens and units of a byte (R103). -/
def bcdDigits (b : Byte) : List Byte :=
  [BitVec.ofNat 8 (b.toNat / 100), BitVec.ofNat 8 (b.toNat / 10 % 10), BitVec.ofNat 8 (b.toNat % 10)]

/-- The address of the glyph for a value: `V[x] × 5`, not reduced to a nibble (R102). -/
def glyphAddr (b : Byte) : Word := BitVec.ofNat 16 (b.toNat * 5)

/-- A key index 0 to 15, or none above (spec/44_keys_timers.md R120). -/
def keyIndex (b : Byte) : Option (Fin 16) :=
  if h : b.toNat < 16 then some ⟨b.toNat, h⟩ else none

/-- The coordinates a sprite row toggles, left to right: bit 7 is column 0 (spec/43_display.md R111). The sums are not
reduced. -/
def rowPixels (x0 y : Nat) (b : Byte) : List (Nat × Nat) :=
  ((List.range 8).filter fun col => b.getLsbD (7 - col)).map fun col => (x0 + col, y)

/-- The coordinates a sprite toggles, rows top to bottom (R111). -/
def spritePixels (x0 : Nat) : Nat → List Byte → List (Nat × Nat)
  | _, [] => []
  | y, b :: bs => rowPixels x0 y b ++ spritePixels x0 (y + 1) bs

end Sys2Proof.Machine
end

