-- ==== Sys2Proof/Machine/Flags.lean ====
section
/-! DEFINITION. The flag computations of spec/10_state.md R12 and the order of the two writes (R13). -/

namespace Sys2Proof.Machine

/-- A flag as the full 8-bit value 0x00 or 0x01 (R12). -/
def flagByte (b : Bool) : Byte := if b then 1 else 0

/-- 8xy4: the carry out of bit 7 (spec/41_alu.md R86). -/
def addCarry (a b : Byte) : Bool := 255 < a.toNat + b.toNat

/-- 8xy5 and 8xy7: no borrow, minuend at least subtrahend (R87, R89). -/
def noBorrow (minuend subtrahend : Byte) : Bool := subtrahend.toNat ≤ minuend.toNat

/-- 8xy6: bit 0 before the shift (R88). -/
def shrOut (b : Byte) : Bool := b.getLsbD 0

/-- 8xyE: bit 7 before the shift (R90). -/
def shlOut (b : Byte) : Bool := b.getLsbD 7

/-- Fx1E: the unreduced sum is above 0x0FFF (spec/42_index_memory.md R101). -/
def indexOverflow (i : Word) (b : Byte) : Bool := 0x0FFF < i.toNat + b.toNat

/-- Writes the data result to `V[x]` and then the flag to VF, the last write (R13). -/
def State.setResultThenFlag (s : State) (x : Reg) (result : Byte) (flag : Bool) : State :=
  (s.setV x result).setV vF (flagByte flag)

/-- Toggles the listed coordinates in order; the flag is set once a toggle answers 0 and never cleared (R111). -/
def toggleAll (dm : DisplayMap) : List (Nat × Nat) → Display × Bool → Display × Bool
  | [], acc => acc
  | (x, y) :: ps, (d, coll) =>
    toggleAll dm ps ((d.toggle dm x y).1, coll || !(d.toggle dm x y).2)

end Sys2Proof.Machine
end

