-- ==== Sys2Proof/Machine/Alu.lean ====
section
/-! DEFINITION. Load-immediate, arithmetic, logic, shift and random (spec/41_alu.md). Operands are read from the state
before the instruction; a flag is the last write (spec/10_state.md R13). -/

namespace Sys2Proof.Machine

/-- 6xkk (R80). -/
def execLdImm (x : Reg) (kk : Byte) (s : State) : Result := .next (s.setV x kk).advance

/-- 7xkk (R81): wraps, no flag. -/
def execAddImm (x : Reg) (kk : Byte) (s : State) : Result := .next (s.setV x (s.getV x + kk)).advance

/-- 8xy0 (R82). -/
def execLdReg (x y : Reg) (s : State) : Result := .next (s.setV x (s.getV y)).advance

/-- 8xy1 (R83). -/
def execOr (x y : Reg) (s : State) : Result := .next (s.setV x (s.getV x ||| s.getV y)).advance

/-- 8xy2 (R84). -/
def execAnd (x y : Reg) (s : State) : Result := .next (s.setV x (s.getV x &&& s.getV y)).advance

/-- 8xy3 (R85). -/
def execXor (x y : Reg) (s : State) : Result := .next (s.setV x (s.getV x ^^^ s.getV y)).advance

/-- 8xy4 (R86). -/
def execAddReg (x y : Reg) (s : State) : Result :=
  .next (s.setResultThenFlag x (s.getV x + s.getV y) (addCarry (s.getV x) (s.getV y))).advance

/-- 8xy5 (R87). -/
def execSub (x y : Reg) (s : State) : Result :=
  .next (s.setResultThenFlag x (s.getV x - s.getV y) (noBorrow (s.getV x) (s.getV y))).advance

/-- 8xy6 for a given ShiftSource (R88): a logical shift by one. -/
def shrWith (src : Config.ShiftSource) (x y : Reg) (s : State) : State :=
  (s.setResultThenFlag x (s.getV (shiftReg src x y) >>> 1) (shrOut (s.getV (shiftReg src x y)))).advance

/-- 8xy6 (R88). ShiftSource is the implementation's (log 2). -/
def execShr (x y : Reg) (s : State) : Result := .next (shrWith Config.shiftSource x y s)

/-- 8xy7 (R89). -/
def execSubn (x y : Reg) (s : State) : Result :=
  .next (s.setResultThenFlag x (s.getV y - s.getV x) (noBorrow (s.getV y) (s.getV x))).advance

/-- 8xyE for a given ShiftSource (R90). -/
def shlWith (src : Config.ShiftSource) (x y : Reg) (s : State) : State :=
  (s.setResultThenFlag x (s.getV (shiftReg src x y) <<< 1) (shlOut (s.getV (shiftReg src x y)))).advance

/-- 8xyE (R90). ShiftSource is the implementation's (log 2). -/
def execShl (x y : Reg) (s : State) : Result := .next (shlWith Config.shiftSource x y s)

/-- Cxkk (R91): exactly one draw. -/
def execRnd (x : Reg) (kk : Byte) (s : State) : Result :=
  .next (s.drawRandom.2.setV x (s.drawRandom.1 &&& kk)).advance

end Sys2Proof.Machine
end

