-- ==== Sys2Proof/Machine/Control.lean ====
section
/-! DEFINITION. Control transfer (spec/40_control.md): RET, JP, CALL, JP_V0 and the four register skips. In every
meaning `s.pc` is the address of the instruction itself (spec/10_state.md R14). -/

namespace Sys2Proof.Machine

/-- 00EE (R70): the popped value plus 2. -/
def execRet (s : State) : Result :=
  match s.pop with
  | some (w, s') => .next (s'.setPc (w + 2))
  | none => raise (.stackUnderflow s.pc) s

/-- 1nnn (R71). -/
def execJp (nnn : Addr12) (s : State) : Result := .next (s.setPc (zextAddr nnn))

/-- 2nnn (R72): pushes its own address. -/
def execCall (nnn : Addr12) (s : State) : Result :=
  match s.push s.pc with
  | some s' => .next (s'.setPc (zextAddr nnn))
  | none => raise (.stackOverflow s.pc) s

/-- Bnnn (R73): the sum is not masked. -/
def execJpV0 (nnn : Addr12) (s : State) : Result :=
  .next (s.setPc (zextAddr nnn + zextByte (s.getV 0)))

/-- 3xkk (R74). -/
def execSeImm (x : Reg) (kk : Byte) (s : State) : Result := .next (s.skipIf (s.getV x == kk))

/-- 4xkk (R75). -/
def execSneImm (x : Reg) (kk : Byte) (s : State) : Result := .next (s.skipIf (s.getV x != kk))

/-- 5xy0 (R76). -/
def execSeReg (x y : Reg) (s : State) : Result := .next (s.skipIf (s.getV x == s.getV y))

/-- 9xy0 (R77). -/
def execSneReg (x y : Reg) (s : State) : Result := .next (s.skipIf (s.getV x != s.getV y))

end Sys2Proof.Machine
end

