-- ==== Sys2Proof/Machine/Display.lean ====
section
/-! DEFINITION. The display instructions (spec/43_display.md) over the reference display of spec/20_memory.md R41. -/

namespace Sys2Proof.Machine

/-- 00E0 (R110). -/
def execCls (s : State) : Result := .next (s.setFb Display.clear).advance

/-- The coordinates Dxyn toggles: the sprite bytes at I, placed at the values of Vx and Vy (R111). -/
def State.drawPixels (s : State) (x y : Reg) (n : Nat) : List (Nat × Nat) :=
  spritePixels (s.getV x).toNat (s.getV y).toNat (s.mem.readBytes s.i.toNat n)

/-- Dxyn after its range check, for a given DisplayMap (R111): VF is written once, last, always. -/
def drawWith (dm : DisplayMap) (x y : Reg) (n : Nat) (s : State) : State :=
  ((s.setFb (toggleAll dm (s.drawPixels x y n) (s.fb, false)).1).setV vF
    (flagByte (toggleAll dm (s.drawPixels x y n) (s.fb, false)).2)).advance

/-- Dxyn (R111). DisplayMap outside the grid is the collaborator's (log 3). -/
def execDrw (x y : Reg) (n : Nat) (s : State) : Result :=
  guardRange s.i.toNat n .read s (drawWith displayMap x y n s)

end Sys2Proof.Machine
end

