-- ==== Sys2Proof/Machine/IndexMemory.lean ====
section
/-! DEFINITION. The index register and memory instructions (spec/42_index_memory.md). Every address is I + k formed as
an integer (spec/20_memory.md R35), and all are checked before the first effect (R48). -/

namespace Sys2Proof.Machine

/-- Annn (R100). -/
def execLdI (nnn : Addr12) (s : State) : Result := .next (s.setI (zextAddr nnn)).advance

/-- Fx1E (R101): I keeps the sum modulo 65536, VF is written last, always. -/
def execAddI (x : Reg) (s : State) : Result :=
  .next ((s.setI (s.i + zextByte (s.getV x))).setV vF (flagByte (indexOverflow s.i (s.getV x)))).advance

/-- Fx29 (R102). -/
def execLdF (x : Reg) (s : State) : Result := .next (s.setI (glyphAddr (s.getV x))).advance

/-- Fx33 (R103). -/
def execLdB (x : Reg) (s : State) : Result :=
  guardRange s.i.toNat 3 .write s (s.setMem (s.mem.writeBytes s.i.toNat (bcdDigits (s.getV x)))).advance

/-- `I <- I + x + 1` (R104, R105). -/
def State.advanceI (s : State) (x : Reg) : State := s.setI (BitVec.ofNat 16 (s.i.toNat + x.val + 1))

/-- Fx55 (R104). -/
def execLdMemVx (x : Reg) (s : State) : Result :=
  guardRange s.i.toNat (x.val + 1) .write s
    ((s.setMem (s.mem.writeBytes s.i.toNat (s.blockRegs x))).advanceI x).advance

/-- V0 to Vx loaded from `mem[I]` to `mem[I + x]` (R105). -/
def State.loadBlock (s : State) (x : Reg) : State :=
  { s with v := s.loadRegs (allRegs.take (x.val + 1)) s.v }

/-- Fx65 (R105). -/
def execLdVxMem (x : Reg) (s : State) : Result :=
  guardRange s.i.toNat (x.val + 1) .read s ((s.loadBlock x).advanceI x).advance

end Sys2Proof.Machine
end

