-- ==== Sys2Proof/Machine/KeysTimers.lean ====
section
/-! DEFINITION. The key and timer instructions (spec/44_keys_timers.md). The key vector is the one the host holds for
this cycle (spec/20_memory.md R43); the tick of the same cycle follows the instruction (spec/60_exceptions.md R145). -/

namespace Sys2Proof.Machine

/-- Ex9E (R120). -/
def execSkp (x : Reg) (s : State) : Result :=
  match keyIndex (s.getV x) with
  | some k => .next (s.skipIf (keyPressed s.keys k))
  | none => raise (.keyIndexOutOfRange (s.getV x) s.pc) s

/-- ExA1 (R121). -/
def execSknp (x : Reg) (s : State) : Result :=
  match keyIndex (s.getV x) with
  | some k => .next (s.skipIf (!keyPressed s.keys k))
  | none => raise (.keyIndexOutOfRange (s.getV x) s.pc) s

/-- Fx0A for the key KeyPick answers (R122): none leaves the state as it is, pc included. -/
def State.storeKey (s : State) (x : Reg) : Option (Fin 16) → State
  | some k => (s.setV x (BitVec.ofNat 8 k.val)).advance
  | none => s

/-- Fx0A (R122). KeyPick is the implementation's where several keys are pressed (log 4). -/
def execLdVxK (x : Reg) (s : State) : Result :=
  .next (s.storeKey x (keyPickWith Config.keyChoice s.keys))

/-- Fx07 (R123). -/
def execLdVxDt (x : Reg) (s : State) : Result := .next (s.setV x s.dt).advance

/-- Fx15 (R124). -/
def execLdDtVx (x : Reg) (s : State) : Result := .next (s.setDt (s.getV x)).advance

/-- Fx18 (R125). -/
def execLdStVx (x : Reg) (s : State) : Result := .next (s.setSt (s.getV x)).advance

end Sys2Proof.Machine
end

