-- ==== Sys2Proof/Machine/Step.lean ====
section
/-! DEFINITION. One cycle requested by the host (spec/60_exceptions.md R145): fetch, decode, execute, then the rest of
the cycle; a faulted core does nothing (R131). -/

namespace Sys2Proof.Machine

/-- The execute step for a fetched opcode (R145, step 2). -/
def execWord (op : Word) (s : State) : Host.Outcome State Fault Refusal :=
  match decodeWord op with
  | some i => exec i s
  | none => .next (unrecognised op s)

/-- A cycle of a running core (R145). -/
def cycle (s : State) : Host.Outcome State Fault Refusal :=
  match fetch s with
  | .ok op => onNext endCycle (execWord op s)
  | .error f => raise f s

/-- One cycle request. -/
def step (s : State) : Host.Outcome State Fault Refusal :=
  match s.status with
  | .running => cycle s
  | .faulted _ => faultedCycle s

/-- `s` with a table word stored where the next step fetches, and the core able to fetch it (log 15). -/
def State.withFetchWord (s : State) (nbits w : Nat) : State :=
  storeFetchWord (readyToFetch s) (BitVec.ofNat 16 (w % 2 ^ nbits))

end Sys2Proof.Machine
end

