-- ==== Sys2Proof/Safety.lean ====
section
/-! DEFINITION. The terms claims are stated in: a safe run, the invariant of the machine, the end of a program, and
what an instruction leaves unchanged. -/

namespace Sys2Proof.Machine

/-- No fatal fault has been raised (spec/10_state.md R18; R131: "a faulted state is never a final state of a correct
run"). -/
def Safe (s : State) : Prop := s.status = .running

/-- The state a step answers, where it answers one. -/
def stepped (s : State) : Option State :=
  match step s with
  | .next t => some t
  | .fault _ => none
  | .refused _ => none

/-- The state after `n` cycle requests. -/
def steppedN : Nat → State → Option State
  | 0, s => some s
  | n + 1, s => (stepped s).bind (steppedN n)

/-- Every one of the first `n` cycle requests leaves the core running. -/
def SafeFor (n : Nat) (s : State) : Prop :=
  ∀ k, k ≤ n → ∃ t, steppedN k s = some t ∧ Safe t

/-- The opcode a cycle fetches: the byte at pc is bits 15:8 (spec/20_memory.md R32). -/
def opcodeAt (s : State) : Word := s.mem.read s.pc.toNat ++ s.mem.read (s.pc.toNat + 1)

/-- A fetch from pc stays inside memory (R32). -/
def Fetchable (s : State) : Prop := s.pc.toNat ≤ 0x0FFE

/-- The program has finished: a running core whose opcode at pc is a jump to pc itself
(spec/70_reset_and_hazards.md R168, the spec's own convention D31). -/
def Finished (s : State) : Prop :=
  Safe s ∧ Fetchable s ∧ opcodeAt s = 0x1000 + s.pc

/-- What STATUS records agrees with the frozen state (spec/60_exceptions.md R130, R131). -/
def FaultInfoHolds (s : State) : Prop :=
  match s.status with
  | .running => True
  | .faulted (.stackOverflow p) => p = s.pc ∧ s.sp.val = 16
  | .faulted (.stackUnderflow p) => p = s.pc ∧ s.sp.val = 0
  | .faulted (.memoryOutOfRange a _) => a = max s.i.toNat 0x1000
  | .faulted (.fetchOutOfRange p) => p = s.pc ∧ 0x0FFE < p.toNat
  | .faulted (.keyIndexOutOfRange w p) => p = s.pc ∧ 15 < w.toNat

/-- The machine's invariant: the memory is in canonical form; pc stays within the bound of spec/10_state.md R14; every
stack entry in use is the address of a fetched call (spec/40_control.md R70); STATUS agrees with the state. -/
def Inv (s : State) : Prop :=
  s.mem.wf = true ∧ s.pc.toNat ≤ 0x10FE ∧
  (∀ k : Fin 16, k.val < s.sp.val → s.stack[k].toNat ≤ 0x0FFE) ∧ FaultInfoHolds s

/-- Every byte of memory reads as before. -/
def SameMemory (s t : State) : Prop := ∀ a, t.mem.read a = s.mem.read a

/-- Nothing but pc differs. -/
def OnlyPc (s t : State) : Prop := t = { s with pc := t.pc } ∧ SameMemory s t

/-- Nothing but general registers and pc differs. -/
def OnlyRegsPc (s t : State) : Prop := t = { s with v := t.v, pc := t.pc } ∧ SameMemory s t

/-- Nothing but I and pc differs. -/
def OnlyIndexPc (s t : State) : Prop := t = { s with i := t.i, pc := t.pc } ∧ SameMemory s t

/-- Every general register but those listed holds its old value. -/
def RegsExcept (rs : List Reg) (s t : State) : Prop := ∀ r : Reg, r ∉ rs → t.v[r] = s.v[r]

end Sys2Proof.Machine
end

