-- ==== Sys2Proof/Certificates/Slice0/Obligations.lean ====
section
/-! DEFINITION. The statements about the model. Each docstring names the spec text it formalises; a clause that rests
on a decision of the spec's own (92_eei_decisions.md) or on a choice of the model says so. -/

open Sys2Proof Sys2Proof.Machine

/-! ### Encoding -/

/-- Words written out from the patterns of 30_encoding.md and the "Decode sanity" list of 95_test_vectors.md 2.6. -/
def Obligations.DecodeSampleWords : Prop :=
  decodeWord 0x00E0 = some .cls ∧ decodeWord 0x0FEE = some .ret ∧ decodeWord 0x1234 = some (.jp 0x234) ∧
  decodeWord 0x5AB0 = some (.seReg 0xA 0xB) ∧ decodeWord 0x6A05 = some (.ldImm 0xA 0x05) ∧
  decodeWord 0x8AB7 = some (.subn 0xA 0xB) ∧ decodeWord 0x8ABE = some (.shl 0xA 0xB) ∧
  decodeWord 0xD125 = some (.drw 1 2 5) ∧ decodeWord 0xEAA1 = some (.sknp 0xA) ∧
  decodeWord 0xFA1E = some (.addI 0xA) ∧ decodeWord 0xFA65 = some (.ldVxMem 0xA) ∧
  decodeWord 0x0000 = none ∧ decodeWord 0x5121 = none ∧ decodeWord 0x812F = none

/-- Every well-formed instruction, with every operand at every value its field admits, is read back from the two bytes
its encoding puts in memory, whatever follows them. -/
def Obligations.DecodeReadsBackEveryEncoding : Prop :=
  ∀ (i : Instr) (rest : List Byte), i.wellFormed = true →
    decode (encodeBytes i ++ rest) = .ok (i, rest)

/-- The decode procedure (30_encoding.md section 2) and the match and mask columns of the instruction list agree: an
opcode is an instruction of a row exactly when `op and mask = match`. -/
def Obligations.DecodeAgreesWithMatchAndMask : Prop :=
  ∀ (op : Word) (i : Instr),
    op &&& i.row.mask = i.row.pattern ↔ ∃ j, decodeWord op = some j ∧ j.row = i.row

/-- The unrecognised encodings are exactly those of the table of 30_encoding.md section 3. -/
def Obligations.UnrecognisedAreExactlyTheTable : Prop :=
  ∀ op : Word, decodeWord op = none ↔
    (op.toNat / 0x1000 = 0x0 ∧ op.toNat % 0x100 ≠ 0xE0 ∧ op.toNat % 0x100 ≠ 0xEE) ∨
    (op.toNat / 0x1000 = 0x5 ∧ op.toNat % 0x10 ≠ 0) ∨
    (op.toNat / 0x1000 = 0x8 ∧ op.toNat % 0x10 ∈ [8, 9, 0xA, 0xB, 0xC, 0xD, 0xF]) ∨
    (op.toNat / 0x1000 = 0x9 ∧ op.toNat % 0x10 ≠ 0) ∨
    (op.toNat / 0x1000 = 0xE ∧ op.toNat % 0x100 ≠ 0x9E ∧ op.toNat % 0x100 ≠ 0xA1) ∨
    (op.toNat / 0x1000 = 0xF ∧ op.toNat % 0x100 ∉ [0x07, 0x0A, 0x15, 0x18, 0x1E, 0x29, 0x33, 0x55, 0x65])

/-- Decoding drops no bit but the ignored ones: a recognised opcode is the encoding of what it decodes to, with bits
11:8 cleared in family 0 (30_encoding.md section 3; the ignored bits are the spec's decision D14, log 12), and what
it decodes to is well formed. -/
def Obligations.EncodeReturnsTheRecognisedWord : Prop :=
  ∀ (op : Word) (i : Instr), decodeWord op = some i →
    i.wellFormed = true ∧
    encode i = if op.toNat < 0x1000 then op &&& 0xF0FF else op

/-! ### The cycle -/

/-- A step runs the decoded instruction (60_exceptions.md section 3): where the two bytes at pc decode to `i`, the step
is `exec i`, then the end of the cycle if the core still runs; a fatal fault abandons the rest. -/
def Obligations.StepRunsTheDecodedInstruction : Prop :=
  ∀ (s : State) (i : Instr), s.status = .running → s.pc.toNat ≤ 0x0FFE →
    decodeWord (s.mem.read s.pc.toNat ++ s.mem.read (s.pc.toNat + 1)) = some i →
    ∃ t, exec i s = .next t ∧
      (t.status = .running → step s = .next (endCycle t)) ∧
      (t.status ≠ .running → step s = .next t)

/-- The end of a running cycle (60_exceptions.md section 3): both timers count down by one and stop at 0, one audio
pulse is emitted exactly if ST was 1, the host's next key vector is presented (the queued one if there is one, else
a free one, log 6), and nothing else changes. -/
def Obligations.EndOfCycleTicksAndPulses : Prop :=
  ∀ t : State, t.status = .running →
    (endCycle t).dt.toNat = t.dt.toNat - 1 ∧ (endCycle t).st.toNat = t.st.toNat - 1 ∧
    (endCycle t).outputs = (if t.st = 1 then .audioTrigger :: t.outputs else t.outputs) ∧
    (∀ k ks, t.keyInputs = k :: ks → (endCycle t).keys = k ∧ (endCycle t).keyInputs = ks) ∧
    (t.keyInputs = [] → (endCycle t).keyInputs = []) ∧
    endCycle t = { t with
      dt := (endCycle t).dt, st := (endCycle t).st, outputs := (endCycle t).outputs,
      keys := (endCycle t).keys, keyInputs := (endCycle t).keyInputs, cycles := t.cycles + 1 }

/-- The timer unit: the tick function, `N` ticks, and one tick in every non-faulting cycle whichever opcode it
executed (60_exceptions.md R146). -/
def Obligations.TimerUnitTicks : Prop :=
  (∀ s : State, beep s = decide (s.st.toNat = 1) ∧
    (tick s).dt.toNat = s.dt.toNat - 1 ∧ (tick s).st.toNat = s.st.toNat - 1 ∧
    tick s = { s with dt := (tick s).dt, st := (tick s).st }) ∧
  (∀ (n : Nat) (s : State),
    (tick^[n] s).dt.toNat = s.dt.toNat - n ∧ (tick^[n] s).st.toNat = s.st.toNat - n) ∧
  (∀ (s t : State), s.status = .running → step s = .next t → t.status = .running →
    ∃ u, execWord (opcodeAt s) s = .next u ∧
      t.dt.toNat = u.dt.toNat - 1 ∧ t.st.toNat = u.st.toNat - 1)

/-- The audio trigger fires in exactly those cycles whose tick takes ST from 1 to 0, and no instruction raises it
(60_exceptions.md section 3): the number of pulses grows by one exactly then. -/
def Obligations.AudioPulsesExactlyWhenSoundTimerEnds : Prop :=
  ∀ s t : State, s.status = .running → step s = .next t →
    (t.status ≠ .running → t.outputs = s.outputs) ∧
    (t.status = .running → ∃ u, execWord (opcodeAt s) s = .next u ∧
      t.outputs.count .audioTrigger = s.outputs.count .audioTrigger + if u.st = 1 then 1 else 0)

/-- An unrecognised opcode is reported with its address and stepped over; nothing else changes before the end of the
cycle (60_exceptions.md section 1; the content of the report is the spec's decision D13, log 11). -/
def Obligations.UnrecognisedOpcodeIsSteppedOver : Prop :=
  ∀ s : State, s.status = .running → s.pc.toNat ≤ 0x0FFE → decodeWord (opcodeAt s) = none →
    step s = .next (endCycle
      { s with pc := s.pc + 2, outputs := .decodeError (opcodeAt s) s.pc :: s.outputs })

/-- A faulted core ignores every later cycle request (the spec's decision D11, log 7). -/
def Obligations.FaultedCoreStaysFrozen : Prop :=
  ∀ (n : Nat) (s : State) (f : FatalFault), s.status = .faulted f → core.run n s = .next s

/-- Every cycle request, in every state, completes: no instruction, opcode or fault ends a step in `fault` or
`refused` (log 7). -/
def Obligations.EveryStepAnswersANextState : Prop :=
  ∀ s : State, ∃ t, step s = .next t

/-- Fatal faults are precise (the spec's decision D11, log 7): the faulting cycle changes nothing but STATUS; no
register, memory cell, stack entry, timer, pixel or event. -/
def Obligations.FatalFaultsArePrecise : Prop :=
  ∀ (s t : State) (f : FatalFault), s.status = .running → step s = .next t → t.status = .faulted f →
    t = { s with status := .faulted f }

/-- When a cycle of a running core raises each fatal fault, with its info (60_exceptions.md section 1; the causes other
than the stack overflow and the writes are the spec's decisions D8, D9, D10, D12, D25). -/
def Sys2Proof.Machine.FaultCause (s : State) : FatalFault → Prop
  | .fetchOutOfRange p => p = s.pc ∧ 0x0FFE < s.pc.toNat
  | .stackOverflow p => p = s.pc ∧ s.pc.toNat ≤ 0x0FFE ∧ s.sp.val = 16 ∧
      ∃ nnn, decodeWord (opcodeAt s) = some (.call nnn)
  | .stackUnderflow p => p = s.pc ∧ s.pc.toNat ≤ 0x0FFE ∧ s.sp.val = 0 ∧
      decodeWord (opcodeAt s) = some .ret
  | .memoryOutOfRange a .write => a = max s.i.toNat 0x1000 ∧ s.pc.toNat ≤ 0x0FFE ∧
      ∃ x, (decodeWord (opcodeAt s) = some (.ldB x) ∧ 0x0FFF < s.i.toNat + 2) ∨
        (decodeWord (opcodeAt s) = some (.ldMemVx x) ∧ 0x0FFF < s.i.toNat + x.val)
  | .memoryOutOfRange a .read => a = max s.i.toNat 0x1000 ∧ s.pc.toNat ≤ 0x0FFE ∧
      ((∃ x, decodeWord (opcodeAt s) = some (.ldVxMem x) ∧ 0x0FFF < s.i.toNat + x.val) ∨
        ∃ x y n, decodeWord (opcodeAt s) = some (.drw x y n) ∧ 0 < n ∧ 0x0FFF < s.i.toNat + n - 1)
  | .keyIndexOutOfRange w p => p = s.pc ∧ s.pc.toNat ≤ 0x0FFE ∧
      ∃ x, (decodeWord (opcodeAt s) = some (.skp x) ∨ decodeWord (opcodeAt s) = some (.sknp x)) ∧
        w = s.v[x] ∧ 15 < w.toNat

/-- The complete list of fatal faults: a cycle of a running core ends faulted with `f` exactly when `FaultCause s f`
holds (the spec's table in 60_exceptions.md section 1 with decisions D8 to D12 and D25). -/
def Obligations.FatalFaultsHaveExactlyTheListedCauses : Prop :=
  ∀ (s : State) (f : FatalFault), s.status = .running →
    ((∃ t, step s = .next t ∧ t.status = .faulted f) ↔ FaultCause s f)

/-! ### Reset, load, invariant -/

/-- The state after reset (10_state.md section 10; all values but I and the place of the font are the spec's decisions
D3 to D6, D11 and D24). Nothing is said of KEYS, which has no reset value, nor of the model's own fields. A later reset
by the host leaves the core so from any state, and emits nothing (70_reset_and_hazards.md section 1, log 14). -/
def Obligations.ResetLeavesTheListedValues : Prop :=
  (∀ r : Reg, State.reset.v[r] = 0) ∧ State.reset.i = 0 ∧ State.reset.pc = 0x0200 ∧
  State.reset.sp = 0 ∧ (∀ k : Fin 16, State.reset.stack[k] = 0) ∧
  State.reset.dt = 0 ∧ State.reset.st = 0 ∧ State.reset.status = .running ∧
  (∀ k : Fin 80, State.reset.mem.read k.val = Config.font[k]) ∧
  (∀ a, 80 ≤ a → State.reset.mem.read a = 0) ∧
  (∀ p : Config.Pixel, State.reset.fb.pixel p = false) ∧
  ∀ s : State, s.hostReset.outputs = s.outputs ∧
    State.reset = { s.hostReset with
      keys := State.reset.keys, keyInputs := State.reset.keyInputs, cycles := State.reset.cycles,
      randomInputs := State.reset.randomInputs, draws := State.reset.draws, outputs := State.reset.outputs }

/-- The loader (70_reset_and_hazards.md section 2): an image of at most 3584 bytes is copied to 0x200 and nothing else
changes; a longer one gives LoadError with its length. -/
def Obligations.LoaderCopiesOrFails : Prop :=
  ∀ (image : List Byte) (s : State),
    (3584 < image.length → s.load image = .error (.tooLong image.length)) ∧
    (image.length ≤ 3584 → ∃ t, s.load image = .ok t ∧ t = { s with mem := t.mem } ∧
      (∀ k, (h : k < image.length) → t.mem.read (0x200 + k) = image[k]) ∧
      ∀ a, a < 0x200 ∨ 0x200 + image.length ≤ a → t.mem.read a = s.mem.read a)

/-- Equal memories are equal data: two canonical memories that read alike at every address are the same list (the
model's choice of representation, log 10). -/
def Obligations.CanonicalMemoryIsDeterminedByReads : Prop :=
  ∀ m m' : Memory, m.wf = true → m'.wf = true → (∀ a, m.read a = m'.read a) → m = m'

/-- The invariant holds at reset. -/
def Obligations.InvariantHoldsAtReset : Prop := Inv State.reset

/-- Every step keeps the invariant: the memory's canonical form (log 10), the bound of pc, the stacked addresses of
fetched calls, and the fault record's agreement with the frozen state. -/
def Obligations.EveryStepKeepsTheInvariant : Prop :=
  ∀ s t : State, Inv s → step s = .next t → Inv t

/-! ### What all instructions leave alone -/

/-- The general registers an instruction may write: its destinations, and VF for the seven flag-writing instructions
(10_state.md section 3). -/
def Sys2Proof.Machine.mayWrite : Instr → Reg → Bool
  | .ldImm x _, r | .addImm x _, r | .ldReg x _, r | .or x _, r | .and x _, r | .xor x _, r
  | .rnd x _, r | .ldVxK x, r | .ldVxDt x, r => r == x
  | .addReg x _, r | .sub x _, r | .shr x _, r | .subn x _, r | .shl x _, r => r == x || r == vF
  | .addI _, r | .drw _ _ _, r => r == vF
  | .ldVxMem x, r => r ≤ x
  | .cls, _ | .ret, _ | .jp _, _ | .call _, _ | .seImm _ _, _ | .sneImm _ _, _ | .seReg _ _, _
  | .sneReg _ _, _ | .ldI _, _ | .jpV0 _, _ | .skp _, _ | .sknp _, _ | .ldDtVx _, _ | .ldStVx _, _
  | .ldF _, _ | .ldB _, _ | .ldMemVx _, _ => false

/-- No instruction writes a general register, VF included, but its destinations and, for the seven flag-writing
instructions, VF (10_state.md section 3; for the instructions that write no flag this is the spec's decision D18). -/
def Obligations.RegistersChangeOnlyAtDestinations : Prop :=
  ∀ (i : Instr) (s t : State) (r : Reg), exec i s = .next t → mayWrite i r = false → t.v[r] = s.v[r]

/-- Which instruction may write each other piece of state (10_state.md sections 5 to 9): DT only Fx15, ST only Fx18,
the stack and SP only 2nnn and 00EE, I only Annn, Fx1E, Fx29, Fx55, Fx65, memory only Fx33 and Fx55, the display only
00E0 and Dxyn, the random port only Cxkk; no instruction changes the keys or emits an event. -/
def Obligations.SpecialStateChangesOnlyByItsInstructions : Prop :=
  ∀ (i : Instr) (s t : State), exec i s = .next t →
    (t.dt ≠ s.dt → ∃ x, i = .ldDtVx x) ∧
    (t.st ≠ s.st → ∃ x, i = .ldStVx x) ∧
    (t.sp ≠ s.sp → i = .ret ∨ ∃ nnn, i = .call nnn) ∧
    (t.stack ≠ s.stack → ∃ nnn, i = .call nnn) ∧
    (t.i ≠ s.i → (∃ nnn, i = .ldI nnn) ∨ ∃ x, i = .addI x ∨ i = .ldF x ∨ i = .ldMemVx x ∨ i = .ldVxMem x) ∧
    (t.mem ≠ s.mem → ∃ x, i = .ldB x ∨ i = .ldMemVx x) ∧
    (t.fb ≠ s.fb → i = .cls ∨ ∃ x y n, i = .drw x y n) ∧
    (t.draws ≠ s.draws ∨ t.randomInputs ≠ s.randomInputs → ∃ x kk, i = .rnd x kk) ∧
    t.keys = s.keys ∧ t.keyInputs = s.keyInputs ∧ t.cycles = s.cycles ∧ t.outputs = s.outputs

/-- The pc after the execute step (40_control.md section 3): plus 2, except that the transfers overwrite it, a taken
skip adds 4, Fx0A may leave it, and a fatal fault leaves it. -/
def Obligations.PcAdvancesByTwoUnlessTransferring : Prop :=
  ∀ (i : Instr) (s t : State), s.status = .running → exec i s = .next t →
    (t.status ≠ .running → t.pc = s.pc) ∧
    (t.status = .running →
      match i with
      | .ret | .jp _ | .call _ | .jpV0 _ => True
      | .seImm _ _ | .sneImm _ _ | .seReg _ _ | .sneReg _ _ | .skp _ | .sknp _ =>
        t.pc = s.pc + 2 ∨ t.pc = s.pc + 4
      | .ldVxK _ => t.pc = s.pc ∨ t.pc = s.pc + 2
      | _ => t.pc = s.pc + 2)

/-- Only Ex9E, ExA1 and Fx0A read the key port (20_memory.md section 5): every other instruction does the same under any
key vector. -/
def Obligations.KeysReachOnlyKeyInstructions : Prop :=
  ∀ (i : Instr) (s : State) (keys : Word),
    (∀ x, i ≠ .skp x ∧ i ≠ .sknp x ∧ i ≠ .ldVxK x) →
    exec i { s with keys := keys } = onNext (fun t => { t with keys := keys }) (exec i s)

/-- Only Cxkk reads the random port (20_memory.md section 5): every other instruction does the same whatever is queued
there and however many draws were taken (log 5). -/
def Obligations.RandomReachesOnlyRnd : Prop :=
  ∀ (i : Instr) (s : State) (rs : List Byte) (n : Nat), (∀ x kk, i ≠ .rnd x kk) →
    exec i { s with randomInputs := rs, draws := n } =
      onNext (fun t => { t with randomInputs := rs, draws := n }) (exec i s)

/-! ### Control transfer (40_control.md) -/

/-- 1nnn (R71): a word of its pattern is the jump to its low 12 bits, and the jump changes pc alone. -/
def Obligations.JumpGoesToItsAddress : Prop :=
  (∀ op : Word, op &&& 0xF000 = 0x1000 →
    ∃ nnn : Addr12, nnn.toNat = op.toNat % 0x1000 ∧ decodeWord op = some (.jp nnn)) ∧
  ∀ (nnn : Addr12) (s : State), ∃ t, exec (.jp nnn) s = .next t ∧
    t.pc.toNat = nnn.toNat ∧ OnlyPc s t

/-- Bnnn: the sum with V0, never masked (the spec's decision D33). -/
def Obligations.JumpV0AddsV0 : Prop :=
  ∀ (nnn : Addr12) (s : State), ∃ t, exec (.jpV0 nnn) s = .next t ∧
    t.pc.toNat = nnn.toNat + s.v[(0 : Reg)].toNat ∧ OnlyPc s t

/-- 2nnn with room on the stack: its own address goes to `STACK[SP]`, SP rises by one, pc is the target (the slot is the
spec's decision D7). -/
def Obligations.CallPushesItsOwnAddress : Prop :=
  ∀ (nnn : Addr12) (s : State), s.sp.val < 16 → ∃ t, exec (.call nnn) s = .next t ∧
    (∀ k : Fin 16, t.stack[k] = if k.val = s.sp.val then s.pc else s.stack[k]) ∧
    t.sp.val = s.sp.val + 1 ∧ t.pc.toNat = nnn.toNat ∧
    t = { s with stack := t.stack, sp := t.sp, pc := t.pc } ∧ SameMemory s t

/-- 00EE with a non-empty stack: SP falls by one and pc is the popped value plus 2; no entry changes (the slot is the
spec's decision D7). -/
def Obligations.ReturnPopsAndAddsTwo : Prop :=
  ∀ (s : State) (k : Fin 16), s.sp.val = k.val + 1 → ∃ t, exec .ret s = .next t ∧
    t.pc = s.stack[k] + 2 ∧ t.sp.val = k.val ∧
    t = { s with sp := t.sp, pc := t.pc } ∧ SameMemory s t

/-- The two stack faults leave everything but STATUS: 2nnn with SP = 16, and 00EE with SP = 0 (the latter the spec's
decision D8; the mechanism its D11, log 7). -/
def Obligations.StackFaultsOnFullCallAndEmptyReturn : Prop :=
  (∀ (nnn : Addr12) (s : State), s.sp.val = 16 →
    exec (.call nnn) s = .next { s with status := .faulted (.stackOverflow s.pc) }) ∧
  (∀ s : State, s.sp.val = 0 →
    exec .ret s = .next { s with status := .faulted (.stackUnderflow s.pc) })

/-- A return restores the pc that follows the call it matches: whatever happened in between, if the stack and SP are as
the call left them, 00EE continues at the call site plus 2 with SP as before the call. -/
def Obligations.ReturnContinuesAfterTheCall : Prop :=
  ∀ (nnn : Addr12) (s t u : State), s.sp.val < 16 → exec (.call nnn) s = .next t →
    u.stack = t.stack → u.sp = t.sp →
    ∃ w, exec .ret u = .next w ∧ w.pc = s.pc + 2 ∧ w.sp = s.sp

/-- 3xkk (R74) and 4xkk (R75): a word of the pattern names x in bits 11:8 and kk in bits 7:0; plus 4 where the
comparison holds, else plus 2, and nothing else changes. -/
def Obligations.ImmediateSkipsCompareAndSkip : Prop :=
  (∀ op : Word, op &&& 0xF000 = 0x3000 → ∃ (x : Reg) (kk : Byte),
    x.val = op.toNat / 0x100 % 0x10 ∧ kk.toNat = op.toNat % 0x100 ∧ decodeWord op = some (.seImm x kk)) ∧
  (∀ op : Word, op &&& 0xF000 = 0x4000 → ∃ (x : Reg) (kk : Byte),
    x.val = op.toNat / 0x100 % 0x10 ∧ kk.toNat = op.toNat % 0x100 ∧ decodeWord op = some (.sneImm x kk)) ∧
  (∀ (x : Reg) (kk : Byte) (s : State), ∃ t, exec (.seImm x kk) s = .next t ∧
    t.pc = s.pc + (if s.v[x] = kk then 4 else 2) ∧ OnlyPc s t) ∧
  (∀ (x : Reg) (kk : Byte) (s : State), ∃ t, exec (.sneImm x kk) s = .next t ∧
    t.pc = s.pc + (if s.v[x] = kk then 2 else 4) ∧ OnlyPc s t)

/-- 5xy0 and 9xy0: plus 4 where the condition holds, else plus 2, and nothing else changes. -/
def Obligations.RegisterSkipsCompareAndSkip : Prop :=
  (∀ (x y : Reg) (s : State), ∃ t, exec (.seReg x y) s = .next t ∧
    t.pc = s.pc + (if s.v[x] = s.v[y] then 4 else 2) ∧ OnlyPc s t) ∧
  (∀ (x y : Reg) (s : State), ∃ t, exec (.sneReg x y) s = .next t ∧
    t.pc = s.pc + (if s.v[x] = s.v[y] then 2 else 4) ∧ OnlyPc s t)

/-! ### Load, arithmetic, logic, shift, random (41_alu.md) -/

/-- 6xkk (R80): a word of the pattern names x in bits 11:8 and kk in bits 7:0; Vx receives kk, VF only as the
destination, and nothing else but pc changes. -/
def Obligations.LoadImmediateSetsVx : Prop :=
  (∀ op : Word, op &&& 0xF000 = 0x6000 → ∃ (x : Reg) (kk : Byte),
    x.val = op.toNat / 0x100 % 0x10 ∧ kk.toNat = op.toNat % 0x100 ∧ decodeWord op = some (.ldImm x kk)) ∧
  ∀ (x : Reg) (kk : Byte) (s : State), ∃ t, exec (.ldImm x kk) s = .next t ∧
    t.v[x] = kk ∧ RegsExcept [x] s t ∧ t.pc = s.pc + 2 ∧ OnlyRegsPc s t

/-- 7xkk: wraps modulo 256 and writes no flag (the latter the spec's decision D18). -/
def Obligations.AddImmediateWrapsWithoutFlag : Prop :=
  ∀ (x : Reg) (kk : Byte) (s : State), ∃ t, exec (.addImm x kk) s = .next t ∧
    t.v[x].toNat = (s.v[x].toNat + kk.toNat) % 256 ∧
    RegsExcept [x] s t ∧ t.pc = s.pc + 2 ∧ OnlyRegsPc s t

/-- 8xy0, 8xy1, 8xy2, 8xy3: assign, or, and, exclusive or, bit by bit; VF is written only as the destination (the spec's
decision D18). -/
def Obligations.AssignAndLogicWriteVxOnly : Prop :=
  ∀ (x y : Reg) (s : State),
    (∃ t, exec (.ldReg x y) s = .next t ∧ t.v[x] = s.v[y] ∧
      RegsExcept [x] s t ∧ t.pc = s.pc + 2 ∧ OnlyRegsPc s t) ∧
    (∃ t, exec (.or x y) s = .next t ∧
      (∀ b < 8, t.v[x].getLsbD b = (s.v[x].getLsbD b || s.v[y].getLsbD b)) ∧
      RegsExcept [x] s t ∧ t.pc = s.pc + 2 ∧ OnlyRegsPc s t) ∧
    (∃ t, exec (.and x y) s = .next t ∧
      (∀ b < 8, t.v[x].getLsbD b = (s.v[x].getLsbD b && s.v[y].getLsbD b)) ∧
      RegsExcept [x] s t ∧ t.pc = s.pc + 2 ∧ OnlyRegsPc s t) ∧
    (∃ t, exec (.xor x y) s = .next t ∧
      (∀ b < 8, t.v[x].getLsbD b = (s.v[x].getLsbD b != s.v[y].getLsbD b)) ∧
      RegsExcept [x] s t ∧ t.pc = s.pc + 2 ∧ OnlyRegsPc s t)

/-- 8xy4, with VF as operand or destination too: the sum modulo 256 in Vx, the carry in VF as the last write. -/
def Obligations.AddRegisterSetsSumThenCarry : Prop :=
  ∀ (x y : Reg) (s : State), ∃ t, exec (.addReg x y) s = .next t ∧
    (x ≠ vF → t.v[x].toNat = (s.v[x].toNat + s.v[y].toNat) % 256) ∧
    t.v[vF] = (if 255 < s.v[x].toNat + s.v[y].toNat then 1 else 0) ∧
    RegsExcept [x, vF] s t ∧ t.pc = s.pc + 2 ∧ OnlyRegsPc s t

/-- 8xy5 and 8xy7: the difference modulo 256 in Vx, VF = 1 exactly when there is no borrow, as the last write. -/
def Obligations.SubtractsSetDifferenceThenNoBorrow : Prop :=
  (∀ (x y : Reg) (s : State), ∃ t, exec (.sub x y) s = .next t ∧
    (x ≠ vF → t.v[x].toNat = (s.v[x].toNat + 256 - s.v[y].toNat) % 256) ∧
    t.v[vF] = (if s.v[y].toNat ≤ s.v[x].toNat then 1 else 0) ∧
    RegsExcept [x, vF] s t ∧ t.pc = s.pc + 2 ∧ OnlyRegsPc s t) ∧
  (∀ (x y : Reg) (s : State), ∃ t, exec (.subn x y) s = .next t ∧
    (x ≠ vF → t.v[x].toNat = (s.v[y].toNat + 256 - s.v[x].toNat) % 256) ∧
    t.v[vF] = (if s.v[x].toNat ≤ s.v[y].toNat then 1 else 0) ∧
    RegsExcept [x, vF] s t ∧ t.pc = s.pc + 2 ∧ OnlyRegsPc s t)

/-- 8xy6 and 8xyE shift by one the register the open parameter ShiftSource names (the spec's decision D19, log 2); VF
receives the bit shifted out, as the last write. -/
def Obligations.ShiftsMoveOneBitIntoVf : Prop :=
  ∀ (x y z : Reg) (s : State),
    z = (match Config.shiftSource with | .vx => x | .vy => y) →
    (∃ t, exec (.shr x y) s = .next t ∧ (x ≠ vF → t.v[x].toNat = s.v[z].toNat / 2) ∧
      t.v[vF].toNat = s.v[z].toNat % 2 ∧
      RegsExcept [x, vF] s t ∧ t.pc = s.pc + 2 ∧ OnlyRegsPc s t) ∧
    (∃ t, exec (.shl x y) s = .next t ∧ (x ≠ vF → t.v[x].toNat = s.v[z].toNat * 2 % 256) ∧
      t.v[vF].toNat = s.v[z].toNat / 128 ∧
      RegsExcept [x, vF] s t ∧ t.pc = s.pc + 2 ∧ OnlyRegsPc s t)

/-- Cxkk: exactly one draw, masked by kk; the draw is the queued byte where the host has queued one and a free byte
otherwise (log 5). -/
def Obligations.RandomMasksOneDraw : Prop :=
  ∀ (x : Reg) (kk : Byte) (s : State), ∃ (t : State) (r : Byte), exec (.rnd x kk) s = .next t ∧
    (∀ q qs, s.randomInputs = q :: qs → r = q ∧ t.randomInputs = qs) ∧
    (s.randomInputs = [] → r = Config.randomByte s.draws ∧ t.randomInputs = []) ∧
    t.draws = s.draws + 1 ∧ t.v[x] = r &&& kk ∧ RegsExcept [x] s t ∧ t.pc = s.pc + 2 ∧
    t = { s with v := t.v, pc := t.pc, randomInputs := t.randomInputs, draws := t.draws } ∧ SameMemory s t

/-! ### Index register and memory (42_index_memory.md) -/

/-- Annn (R100): a word of the pattern has nnn in bits 11:0; I receives it with bits 15:12 zero, and nothing else but pc
changes. -/
def Obligations.LoadIndexSetsI : Prop :=
  (∀ op : Word, op &&& 0xF000 = 0xA000 →
    ∃ nnn : Addr12, nnn.toNat = op.toNat % 0x1000 ∧ decodeWord op = some (.ldI nnn)) ∧
  ∀ (nnn : Addr12) (s : State), ∃ t, exec (.ldI nnn) s = .next t ∧
    t.i.toNat = nnn.toNat ∧ t.pc = s.pc + 2 ∧ OnlyIndexPc s t

/-- Fx1E: the 16-bit sum in I, and VF = 1 exactly when the unreduced sum is above 0x0FFF, written last on every execution
(the spec's decision D20). -/
def Obligations.AddIndexSetsSumAndRangeFlag : Prop :=
  ∀ (x : Reg) (s : State), ∃ t, exec (.addI x) s = .next t ∧
    t.i.toNat = (s.i.toNat + s.v[x].toNat) % 65536 ∧
    t.v[vF] = (if 0x0FFF < s.i.toNat + s.v[x].toNat then 1 else 0) ∧
    RegsExcept [vF] s t ∧ t.pc = s.pc + 2 ∧
    t = { s with v := t.v, i := t.i, pc := t.pc } ∧ SameMemory s t

/-- Fx29: I is five times the whole value of Vx. -/
def Obligations.FontAddressIsFiveTimesVx : Prop :=
  ∀ (x : Reg) (s : State), ∃ t, exec (.ldF x) s = .next t ∧
    t.i.toNat = s.v[x].toNat * 5 ∧ t.pc = s.pc + 2 ∧ OnlyIndexPc s t

/-- Fx33 with all three addresses in memory: hundreds, tens and units at I, I + 1 and I + 2; every other byte of memory
and everything else but pc stays. -/
def Obligations.BcdStoresThreeDigits : Prop :=
  ∀ (x : Reg) (s : State), s.i.toNat + 2 ≤ 0x0FFF → ∃ t, exec (.ldB x) s = .next t ∧
    (t.mem.read s.i.toNat).toNat = s.v[x].toNat / 100 ∧
    (t.mem.read (s.i.toNat + 1)).toNat = s.v[x].toNat / 10 % 10 ∧
    (t.mem.read (s.i.toNat + 2)).toNat = s.v[x].toNat % 10 ∧
    (∀ a, a < s.i.toNat ∨ s.i.toNat + 2 < a → t.mem.read a = s.mem.read a) ∧
    t.pc = s.pc + 2 ∧ t = { s with mem := t.mem, pc := t.pc }

/-- Fx55 with all addresses in memory: V0 to Vx at I to I + x, then I is I + x + 1 (the spec's decision D21); every other
byte of memory and everything else but pc stays. -/
def Obligations.BlockStoreWritesV0ToVx : Prop :=
  ∀ (x : Reg) (s : State), s.i.toNat + x.val ≤ 0x0FFF → ∃ t, exec (.ldMemVx x) s = .next t ∧
    (∀ r : Reg, r ≤ x → t.mem.read (s.i.toNat + r.val) = s.v[r]) ∧
    (∀ a, a < s.i.toNat ∨ s.i.toNat + x.val < a → t.mem.read a = s.mem.read a) ∧
    t.i.toNat = s.i.toNat + x.val + 1 ∧ t.pc = s.pc + 2 ∧
    t = { s with mem := t.mem, i := t.i, pc := t.pc }

/-- Fx65 with all addresses in memory: V0 to Vx from I to I + x, the registers above x stay, then I is I + x + 1 (the
spec's decision D21). -/
def Obligations.BlockLoadReadsV0ToVx : Prop :=
  ∀ (x : Reg) (s : State), s.i.toNat + x.val ≤ 0x0FFF → ∃ t, exec (.ldVxMem x) s = .next t ∧
    (∀ r : Reg, r ≤ x → t.v[r] = s.mem.read (s.i.toNat + r.val)) ∧
    (∀ r : Reg, x < r → t.v[r] = s.v[r]) ∧
    t.i.toNat = s.i.toNat + x.val + 1 ∧ t.pc = s.pc + 2 ∧
    t = { s with v := t.v, i := t.i, pc := t.pc } ∧ SameMemory s t

/-- The data accesses that leave memory change nothing but STATUS, which records the lowest offending address and the
kind (decisions D9, D11 and D12 of the spec, log 7). -/
def Obligations.OutOfRangeAccessesFault : Prop :=
  ∀ s : State,
    (∀ x : Reg, 0x0FFF < s.i.toNat + 2 → exec (.ldB x) s =
      .next { s with status := .faulted (.memoryOutOfRange (max s.i.toNat 0x1000) .write) }) ∧
    (∀ x : Reg, 0x0FFF < s.i.toNat + x.val → exec (.ldMemVx x) s =
      .next { s with status := .faulted (.memoryOutOfRange (max s.i.toNat 0x1000) .write) }) ∧
    (∀ x : Reg, 0x0FFF < s.i.toNat + x.val → exec (.ldVxMem x) s =
      .next { s with status := .faulted (.memoryOutOfRange (max s.i.toNat 0x1000) .read) }) ∧
    (∀ (x y : Reg) (n : Nat), 0 < n → 0x0FFF < s.i.toNat + n - 1 → exec (.drw x y n) s =
      .next { s with status := .faulted (.memoryOutOfRange (max s.i.toNat 0x1000) .read) })

/-- Storing V0 to Vx and then loading them from the same base, with the registers and everything but memory, pc and
STATUS changed in between, restores the stored values (the source's round-trip property, quoted in 42_index_memory.md
section 2). -/
def Obligations.BlockStoreThenLoadRestores : Prop :=
  ∀ (x : Reg) (s t u : State), s.i.toNat + x.val ≤ 0x0FFF → exec (.ldMemVx x) s = .next t →
    u.mem = t.mem → u.i = s.i →
    ∃ w, exec (.ldVxMem x) u = .next w ∧ ∀ r : Reg, r ≤ x → w.v[r] = s.v[r]

/-- Instruction fetch sees the bytes Fx55 has just written (20_memory.md section 2): no fence, flush or delay. -/
def Obligations.FetchSeesStoredBytes : Prop :=
  ∀ (x : Reg) (s t : State) (p : Word) (r q : Reg), s.i.toNat + x.val ≤ 0x0FFF →
    exec (.ldMemVx x) s = .next t → q ≤ x → q.val = r.val + 1 → p.toNat = s.i.toNat + r.val →
    fetch { t with pc := p } = .ok (s.v[r] ++ s.v[q])

/-! ### Display (43_display.md) -/

/-- 00E0: every pixel is off afterwards and nothing else but pc changes. -/
def Obligations.ClearTurnsEveryPixelOff : Prop :=
  ∀ s : State, ∃ t, exec .cls s = .next t ∧ (∀ p : Config.Pixel, t.fb.pixel p = false) ∧
    t.pc = s.pc + 2 ∧ t = { s with fb := t.fb, pc := t.pc } ∧ SameMemory s t

/-- Whether row `row`, column `col` of the n-row sprite at I is a 1 bit: bit 7 of a byte is column 0. -/
def Sys2Proof.Machine.spriteBit (s : State) (n row col : Nat) : Bool :=
  decide (row < n) && decide (col < 8) && (s.mem.read (s.i.toNat + row)).getLsbD (7 - col)

/-- Dxyn with its rows in memory, drawn inside the grid: each pixel under a 1 bit is inverted and no other, VF is 1
exactly if one of them was on, and nothing else but pc changes (the bit order and the coordinates are the spec's
decision D23, the grid its D24; that a coordinate inside the grid is its own pixel under every DisplayMap is the model's
deduction, log 3). -/
def Obligations.DrawInsideTheGridInvertsUnderOneBits : Prop :=
  ∀ (x y : Reg) (n : Nat) (s : State), s.v[x].toNat + 8 ≤ 64 → s.v[y].toNat + n ≤ 32 →
    (n = 0 ∨ s.i.toNat + n - 1 ≤ 0x0FFF) →
    ∃ t, exec (.drw x y n) s = .next t ∧
      (∀ p : Config.Pixel, t.fb.pixel p =
        (s.fb.pixel p != (decide (s.v[x].toNat ≤ p.1.val) && decide (s.v[y].toNat ≤ p.2.val) &&
          spriteBit s n (p.2.val - s.v[y].toNat) (p.1.val - s.v[x].toNat)))) ∧
      (t.v[vF] = 1 ∨ t.v[vF] = 0) ∧
      (t.v[vF] = 1 ↔ ∃ (row col : Nat) (p : Config.Pixel), spriteBit s n row col = true ∧
        p.1.val = s.v[x].toNat + col ∧ p.2.val = s.v[y].toNat + row ∧ s.fb.pixel p = true) ∧
      RegsExcept [vF] s t ∧ t.pc = s.pc + 2 ∧
      t = { s with fb := t.fb, v := t.v, pc := t.pc } ∧ SameMemory s t

/-- Dxyn with its rows in memory completes wherever it is drawn: the display and VF change as the implementation's
DisplayMap says, and nothing else but pc (the map is free outside the grid, log 3); with n = 0 it draws nothing,
even with I beyond memory, and VF is 0. -/
def Obligations.DrawCompletesAnywhere : Prop :=
  ∀ (x y : Reg) (n : Nat) (s : State), (n = 0 ∨ s.i.toNat + n - 1 ≤ 0x0FFF) →
    ∃ t, exec (.drw x y n) s = .next t ∧ t = drawWith displayMap x y n s ∧
      (n = 0 → t.fb = s.fb ∧ t.v[vF] = 0) ∧ (t.v[vF] = 1 ∨ t.v[vF] = 0) ∧
      RegsExcept [vF] s t ∧ t.pc = s.pc + 2 ∧
      t = { s with fb := t.fb, v := t.v, pc := t.pc } ∧ SameMemory s t

/-- The draw under both named DisplayMaps, at any coordinates (20_memory.md section 3 and 43_display.md, decisions D23
and D24): a pixel is inverted exactly if a 1 bit of the sprite maps to it, and VF is 1 exactly if such a pixel was
on. -/
def Obligations.DrawUnderWrapAndClip : Prop :=
  ∀ (dm : DisplayMap) (x y : Reg) (n : Nat) (s : State), dm = wrapMap ∨ dm = clipMap → n ≤ 15 →
    (∀ p : Config.Pixel, (drawWith dm x y n s).fb.pixel p = true ↔
      ¬ (s.fb.pixel p = true ↔ ∃ row col, spriteBit s n row col = true ∧
        dm (s.v[x].toNat + col) (s.v[y].toNat + row) = some p)) ∧
    ((drawWith dm x y n s).v[vF] = 1 ↔ ∃ row col p, spriteBit s n row col = true ∧
      dm (s.v[x].toNat + col) (s.v[y].toNat + row) = some p ∧ s.fb.pixel p = true)

/-- Drawing the same sprite twice at the same coordinates restores the display (43_display.md, the source's self-inverse
property), whatever the DisplayMap is outside the grid; inside it a coordinate is its own pixel, the model's deduction
(log 3). -/
def Obligations.DrawingTwiceRestoresTheDisplay : Prop :=
  ∀ (x y : Reg) (n : Nat) (s t u : State),
    exec (.drw x y n) s = .next t → exec (.drw x y n) { s with fb := t.fb } = .next u → u.fb = s.fb

/-- Under both named DisplayMaps the second of two like draws has VF = 1 exactly when the first turned at least one pixel
on. -/
def Obligations.SecondDrawCollidesIffFirstTurnedOn : Prop :=
  ∀ (dm : DisplayMap) (x y : Reg) (n : Nat) (s t : State), dm = wrapMap ∨ dm = clipMap → n ≤ 15 →
    t = drawWith dm x y n s →
    ((drawWith dm x y n { s with fb := t.fb }).v[vF] = 1 ↔
      ∃ p : Config.Pixel, s.fb.pixel p = false ∧ t.fb.pixel p = true)

/-! ### Keys and timers (44_keys_timers.md) -/

/-- Ex9E and ExA1 with an index 0 to 15: plus 4 where the key is pressed, respectively not pressed, else plus 2, and
nothing else changes. -/
def Obligations.KeySkipsTestTheKeyInVx : Prop :=
  ∀ (x : Reg) (s : State), s.v[x].toNat ≤ 15 →
    (∃ t, exec (.skp x) s = .next t ∧
      t.pc = s.pc + (if s.keys.getLsbD s.v[x].toNat = true then 4 else 2) ∧ OnlyPc s t) ∧
    (∃ t, exec (.sknp x) s = .next t ∧
      t.pc = s.pc + (if s.keys.getLsbD s.v[x].toNat = true then 2 else 4) ∧ OnlyPc s t)

/-- Ex9E and ExA1 with an index above 15 raise KeyIndexOutOfRange, and nothing but STATUS changes (the spec's decisions
D25 and D11). -/
def Obligations.KeyIndexAboveFifteenFaults : Prop :=
  ∀ (x : Reg) (s : State), 15 < s.v[x].toNat →
    exec (.skp x) s = .next { s with status := .faulted (.keyIndexOutOfRange s.v[x] s.pc) } ∧
    exec (.sknp x) s = .next { s with status := .faulted (.keyIndexOutOfRange s.v[x] s.pc) }

/-- Fx0A: with no key pressed nothing changes, pc included; with keys pressed Vx receives the index of a pressed key,
which one being the open parameter KeyPick (the spec's decision D26, log 4), and pc goes on. -/
def Obligations.KeyWaitStoresAPressedKey : Prop :=
  ∀ (x : Reg) (s : State),
    ((∀ k < 16, s.keys.getLsbD k = false) → exec (.ldVxK x) s = .next s) ∧
    ((∃ k, s.keys.getLsbD k = true) → ∃ t, exec (.ldVxK x) s = .next t ∧
      t.v[x].toNat ≤ 15 ∧ s.keys.getLsbD t.v[x].toNat = true ∧
      RegsExcept [x] s t ∧ t.pc = s.pc + 2 ∧ OnlyRegsPc s t)

/-- Fx07: Vx receives DT as it is before this cycle's tick; DT is not changed by the read. -/
def Obligations.ReadDelayTimerIntoVx : Prop :=
  ∀ (x : Reg) (s : State), ∃ t, exec (.ldVxDt x) s = .next t ∧
    t.v[x] = s.dt ∧ RegsExcept [x] s t ∧ t.pc = s.pc + 2 ∧ OnlyRegsPc s t

/-- Fx15 and Fx18: the timer receives Vx; and the tick of the same cycle follows, so that the cycle leaves Vx less 1,
or 0. -/
def Obligations.WriteTimersFromVx : Prop :=
  ∀ (x : Reg) (s : State),
    (∃ t, exec (.ldDtVx x) s = .next t ∧ t.dt = s.v[x] ∧ t.pc = s.pc + 2 ∧
      t = { s with dt := t.dt, pc := t.pc } ∧ SameMemory s t ∧
      (s.status = .running → (endCycle t).dt.toNat = s.v[x].toNat - 1)) ∧
    (∃ t, exec (.ldStVx x) s = .next t ∧ t.st = s.v[x] ∧ t.pc = s.pc + 2 ∧
      t = { s with st := t.st, pc := t.pc } ∧ SameMemory s t ∧
      (s.status = .running → (endCycle t).st.toNat = s.v[x].toNat - 1))

/-- The end of a program (70_reset_and_hazards.md section 2, the spec's convention D31): once the opcode at pc is a jump
to itself, every further cycle leaves everything but the timers, the pulses and the host's inputs as it is, while DT
and ST count down to 0. -/
def Obligations.FinishedProgramHoldsStill : Prop :=
  ∀ (n : Nat) (s : State), Finished s → ∃ t, core.run n s = .next t ∧
    t.dt.toNat = s.dt.toNat - n ∧ t.st.toNat = s.st.toNat - n ∧ Finished t ∧
    t = { s with dt := t.dt, st := t.st, outputs := t.outputs, keys := t.keys,
                 keyInputs := t.keyInputs, cycles := t.cycles }
end

