-- ==== Sys2Proof/Laws/Decode.lean ====
section
/-! SUPPORT. Fields and packed words as numbers; the fields of a packed word are the operands it was packed from. -/

namespace Sys2Proof

/-! ### Fields as numbers -/

theorem famOf_toNat (op : Word) : (famOf op).toNat = op.toNat / 4096 := by
  have := op.isLt
  simp only [famOf, BitVec.extractLsb'_toNat, Nat.shiftRight_eq_div_pow]; omega

theorem nibble2_toNat (op : Word) : (nibble2 op).toNat = op.toNat / 256 % 16 := by
  simp only [nibble2, BitVec.extractLsb'_toNat, Nat.shiftRight_eq_div_pow]

theorem nibble1_toNat (op : Word) : (nibble1 op).toNat = op.toNat / 16 % 16 := by
  simp only [nibble1, BitVec.extractLsb'_toNat, Nat.shiftRight_eq_div_pow]

theorem nibble0_toNat (op : Word) : (nibble0 op).toNat = op.toNat % 16 := by
  simp only [nibble0, BitVec.extractLsb'_toNat, Nat.shiftRight_eq_div_pow]; simp

theorem kkOf_toNat (op : Word) : (kkOf op).toNat = op.toNat % 256 := by
  simp only [kkOf, BitVec.extractLsb'_toNat, Nat.shiftRight_eq_div_pow]; simp

theorem nnnOf_toNat (op : Word) : (nnnOf op).toNat = op.toNat % 4096 := by
  simp only [nnnOf, BitVec.extractLsb'_toNat, Nat.shiftRight_eq_div_pow]; simp

theorem xOf_val (op : Word) : (xOf op).val = op.toNat / 256 % 16 := nibble2_toNat op

theorem yOf_val (op : Word) : (yOf op).val = op.toNat / 16 % 16 := nibble1_toNat op

theorem nOf_eq (op : Word) : nOf op = op.toNat % 16 := nibble0_toNat op

/-! ### Packed words as numbers -/

/-- Concatenation, the left part in the more significant bits. -/
theorem append_toNat {m n : Nat} (a : BitVec m) (b : BitVec n) :
    (a ++ b).toNat = a.toNat * 2 ^ n + b.toNat := by
  rw [BitVec.toNat_append, Nat.shiftLeft_eq, ← Nat.shiftLeft_eq, Nat.shiftLeft_add_eq_or_of_lt b.isLt]

theorem opcodeOf_toNat (hi lo : Byte) : (opcodeOf hi lo).toNat = hi.toNat * 256 + lo.toNat :=
  append_toNat hi lo

theorem packNnn_toNat (f : BitVec 4) (nnn : Addr12) : (packNnn f nnn).toNat = f.toNat * 4096 + nnn.toNat :=
  append_toNat f nnn

theorem packXkk_toNat (f x : BitVec 4) (kk : Byte) :
    (packXkk f x kk).toNat = f.toNat * 4096 + (x.toNat * 256 + kk.toNat) :=
  (append_toNat f (x ++ kk)).trans (by rw [append_toNat]; rfl)

theorem packXyn_toNat (f x y n : BitVec 4) :
    (packXyn f x y n).toNat = f.toNat * 4096 + (x.toNat * 256 + (y.toNat * 16 + n.toNat)) :=
  (append_toNat f (x ++ (y ++ n))).trans (by rw [append_toNat x, append_toNat]; rfl)

theorem regBits_toNat (r : Reg) : (regBits r).toNat = r.val := rfl

/-! ### The fields of a packed word -/

@[simp] theorem famOf_packNnn (f : BitVec 4) (nnn : Addr12) : famOf (packNnn f nnn) = f := by
  apply BitVec.eq_of_toNat_eq; rw [famOf_toNat, packNnn_toNat]; omega

@[simp] theorem nnnOf_packNnn (f : BitVec 4) (nnn : Addr12) : nnnOf (packNnn f nnn) = nnn := by
  apply BitVec.eq_of_toNat_eq; rw [nnnOf_toNat, packNnn_toNat]; omega

@[simp] theorem famOf_packXkk (f x : BitVec 4) (kk : Byte) : famOf (packXkk f x kk) = f := by
  apply BitVec.eq_of_toNat_eq; rw [famOf_toNat, packXkk_toNat]; omega

@[simp] theorem xOf_packXkk (f : BitVec 4) (x : Reg) (kk : Byte) : xOf (packXkk f (regBits x) kk) = x := by
  apply Fin.ext; rw [xOf_val, packXkk_toNat, regBits_toNat]; omega

@[simp] theorem kkOf_packXkk (f x : BitVec 4) (kk : Byte) : kkOf (packXkk f x kk) = kk := by
  apply BitVec.eq_of_toNat_eq; rw [kkOf_toNat, packXkk_toNat]; omega

@[simp] theorem famOf_packXyn (f x y n : BitVec 4) : famOf (packXyn f x y n) = f := by
  apply BitVec.eq_of_toNat_eq; rw [famOf_toNat, packXyn_toNat]; omega

@[simp] theorem xOf_packXyn (f : BitVec 4) (x : Reg) (y n : BitVec 4) :
    xOf (packXyn f (regBits x) y n) = x := by
  apply Fin.ext; rw [xOf_val, packXyn_toNat, regBits_toNat]; omega

@[simp] theorem yOf_packXyn (f x : BitVec 4) (y : Reg) (n : BitVec 4) :
    yOf (packXyn f x (regBits y) n) = y := by
  apply Fin.ext; rw [yOf_val, packXyn_toNat, regBits_toNat]; omega

@[simp] theorem nibble0_packXyn (f x y n : BitVec 4) : nibble0 (packXyn f x y n) = n := by
  apply BitVec.eq_of_toNat_eq; rw [nibble0_toNat, packXyn_toNat]; omega

/-! ### Words and bytes -/

/-- A word is its two bytes, high byte first. -/
@[simp] theorem opcodeOf_bytes (op : Word) : opcodeOf (op.extractLsb' 8 8) (op.extractLsb' 0 8) = op := by
  apply BitVec.eq_of_toNat_eq
  have := op.isLt
  rw [opcodeOf_toNat]
  simp only [BitVec.extractLsb'_toNat, Nat.shiftRight_eq_div_pow]; omega

/-- Bytes that start with an encoding decode to what the word decodes to. -/
theorem decode_encodeBytes (i : Instr) (rest : List Byte) (h : decodeWord (encode i) = some i) :
    decode (encodeBytes i ++ rest) = .ok (i, rest) := by
  simp [encodeBytes, decode, h]

/-! ### The masks of the instruction list -/

/-- A mask that keeps the family and the low `k` bits, bit by bit. -/
theorem and_mask_toNat (op mask : Word) (k : Nat) (hk : k ≤ 12)
    (hm : ∀ b < 16, mask.toNat.testBit b = (decide (12 ≤ b) || decide (b < k))) :
    (op &&& mask).toNat = op.toNat / 4096 * 4096 + op.toNat % 2 ^ k := by
  have hlt : op.toNat % 2 ^ k < 2 ^ 12 :=
    lt_of_lt_of_le (Nat.mod_lt _ (by positivity)) (Nat.pow_le_pow_right (by decide) hk)
  have hsum : op.toNat / 4096 * 4096 + op.toNat % 2 ^ k = (op.toNat >>> 12) <<< 12 ||| op.toNat % 2 ^ k := by
    rw [← Nat.shiftLeft_add_eq_or_of_lt hlt, Nat.shiftLeft_eq, Nat.shiftRight_eq_div_pow]
  rw [hsum, BitVec.toNat_and]
  apply Nat.eq_of_testBit_eq
  intro b
  simp only [Nat.testBit_and, Nat.testBit_or, Nat.testBit_shiftLeft, Nat.testBit_shiftRight,
    Nat.testBit_mod_two_pow]
  by_cases hb : b < 16
  · rw [hm b hb]
    by_cases h12 : 12 ≤ b
    · simp [h12, show 12 + (b - 12) = b by omega]
    · simp [h12, Bool.and_comm]
  · have h0 : op.toNat.testBit b = false :=
      Nat.testBit_lt_two_pow (lt_of_lt_of_le op.isLt (Nat.pow_le_pow_right (by decide) (by omega)))
    simp [h0, show 12 + (b - 12) = b by omega]

/-- Masking with 0xF000 keeps the family. -/
theorem and_F000_toNat (op : Word) : (op &&& (0xF000 : Word)).toNat = op.toNat / 4096 * 4096 := by
  simpa [Nat.mod_one] using and_mask_toNat op 0xF000 0 (by decide) (by decide)

/-- Masking with 0xF00F keeps the family and the low nibble. -/
theorem and_F00F_toNat (op : Word) :
    (op &&& (0xF00F : Word)).toNat = op.toNat / 4096 * 4096 + op.toNat % 16 :=
  and_mask_toNat op 0xF00F 4 (by decide) (by decide)

/-- Masking with 0xF0FF keeps the family and the low byte. -/
theorem and_F0FF_toNat (op : Word) :
    (op &&& (0xF0FF : Word)).toNat = op.toNat / 4096 * 4096 + op.toNat % 256 :=
  and_mask_toNat op 0xF0FF 8 (by decide) (by decide)

end Sys2Proof
end

