-- ==== Sys2Proof/Laws/Memory.lean ====
section
/-! SUPPORT. The laws of memory: a read after a write, a write leaves every other address alone, and every operation
keeps the canonical form. -/

namespace Sys2Proof.Machine

/-! ### One byte -/

theorem Memory.find_insert (m : Memory) (a b : Nat) (w : Byte) :
    (m.insert a w).find b = if b = a then some w else m.find b := by
  induction m with
  | nil => simp [Memory.insert, Memory.find]
  | cons c m ih =>
    obtain ⟨k, u⟩ := c
    simp only [Memory.insert]
    split
    · simp [Memory.find]
    · split
      · subst k; by_cases h : b = a <;> simp [Memory.find, h]
      · by_cases h : b = k
        · have : b ≠ a := by omega
          simp [Memory.find, h]; omega
        · simp [Memory.find, h, ih]

theorem Memory.find_unlist (m : Memory) (a b : Nat) :
    (m.unlist a).find b = if b = a then none else m.find b := by
  induction m with
  | nil => simp [Memory.unlist, Memory.find]
  | cons c m ih =>
    obtain ⟨k, u⟩ := c
    simp only [Memory.unlist]
    split
    · subst k; rw [ih]; by_cases h : b = a <;> simp [Memory.find, h]
    · by_cases h : b = k
      · have : b ≠ a := by omega
        simp [Memory.find, h]; omega
      · simp [Memory.find, h, ih]

/-- Reading one byte after writing one. -/
theorem Memory.read_write (m : Memory) (a b : Nat) (w : Byte) :
    (m.write a w).read b = if b = a then w else m.read b := by
  unfold Memory.write Memory.read
  split <;> rename_i h
  · rw [find_unlist]; by_cases hb : b = a <;> simp [hb, h]
  · rw [find_insert]; by_cases hb : b = a <;> simp [hb]

theorem Memory.read_write_self (m : Memory) (a : Nat) (w : Byte) : (m.write a w).read a = w := by
  simp [read_write]

theorem Memory.read_write_other (m : Memory) (a b : Nat) (w : Byte) (h : b ≠ a) :
    (m.write a w).read b = m.read b := by
  simp [read_write, h]

/-! ### Several bytes -/

/-- Reading below or above written bytes. -/
theorem Memory.read_writeBytes_outside (ws : List Byte) (m : Memory) (a b : Nat)
    (h : b < a ∨ a + ws.length ≤ b) : (m.writeBytes a ws).read b = m.read b := by
  induction ws generalizing m a with
  | nil => rfl
  | cons w ws ih =>
    simp only [List.length_cons] at h
    rw [Memory.writeBytes, ih _ _ (by omega), read_write_other _ _ _ _ (by omega)]

/-- Reading a written byte. -/
theorem Memory.read_writeBytes_inside (ws : List Byte) (m : Memory) (a k : Nat) (h : k < ws.length) :
    (m.writeBytes a ws).read (a + k) = ws[k] := by
  induction ws generalizing m a k with
  | nil => simp at h
  | cons w ws ih =>
    rw [Memory.writeBytes]
    cases k with
    | zero => rw [read_writeBytes_outside _ _ _ _ (by omega)]; simp [read_write_self]
    | succ k =>
      rw [List.length_cons] at h
      have := ih (m.write a w) (a + 1) k (by omega)
      rw [show a + (k + 1) = a + 1 + k by omega, this]; rfl

@[simp] theorem Memory.length_readBytes (m : Memory) (a n : Nat) : (m.readBytes a n).length = n := by
  induction n generalizing a with
  | zero => rfl
  | succ n ih => simp [Memory.readBytes, ih]

theorem Memory.getElem_readBytes (m : Memory) (a n k : Nat) (h : k < (m.readBytes a n).length) :
    (m.readBytes a n)[k] = m.read (a + k) := by
  induction n generalizing a k with
  | zero => simp at h
  | succ n ih =>
    cases k with
    | zero => rfl
    | succ k =>
      simp only [Memory.readBytes, List.getElem_cons_succ]
      rw [ih (a + 1) k (by simpa [Memory.readBytes] using h)]
      congr 1; omega

/-- Blocks of bytes that read alike are alike. -/
theorem Memory.readBytes_congr (m m' : Memory) (h : ∀ a, m.read a = m'.read a) (a n : Nat) :
    m.readBytes a n = m'.readBytes a n := by
  induction n generalizing a with
  | zero => rfl
  | succ n ih => simp [Memory.readBytes, h, ih]

/-! ### The canonical form -/

theorem Memory.wfFrom_mono (m : Memory) (lo lo' : Nat) (hle : lo' ≤ lo) (h : Memory.wfFrom lo m = true) :
    Memory.wfFrom lo' m = true := by
  cases m with
  | nil => rfl
  | cons c m =>
    simp only [Memory.wfFrom, Bool.and_eq_true, decide_eq_true_eq] at h ⊢
    exact ⟨⟨⟨by omega, h.1.1.2⟩, h.1.2⟩, h.2⟩

theorem Memory.wfFrom_insert (m : Memory) (lo a : Nat) (w : Byte) (hlo : lo ≤ a) (ha : a < 4096)
    (hw : w ≠ Memory.background a) (h : Memory.wfFrom lo m = true) :
    Memory.wfFrom lo (m.insert a w) = true := by
  induction m generalizing lo with
  | nil => simp [Memory.insert, Memory.wfFrom]; exact ⟨⟨hlo, ha⟩, hw⟩
  | cons c m ih =>
    obtain ⟨k, u⟩ := c
    simp only [Memory.wfFrom, Bool.and_eq_true, decide_eq_true_eq, Bool.not_eq_true'] at h
    obtain ⟨⟨⟨h1, h2⟩, h3⟩, h4⟩ := h
    simp only [Memory.insert]
    split
    · simp only [Memory.wfFrom, Bool.and_eq_true, decide_eq_true_eq, Bool.not_eq_true',
        decide_eq_false_iff_not] at h3 ⊢
      exact ⟨⟨⟨hlo, ha⟩, hw⟩, ⟨⟨by omega, h2⟩, h3⟩, h4⟩
    · split
      · subst k
        simp only [Memory.wfFrom, Bool.and_eq_true, decide_eq_true_eq, Bool.not_eq_true',
          decide_eq_false_iff_not]
        exact ⟨⟨⟨hlo, ha⟩, hw⟩, h4⟩
      · simp only [Memory.wfFrom, Bool.and_eq_true, decide_eq_true_eq, Bool.not_eq_true']
        exact ⟨⟨⟨h1, h2⟩, h3⟩, ih (k + 1) (by omega) h4⟩

theorem Memory.wfFrom_unlist (m : Memory) (lo a : Nat) (h : Memory.wfFrom lo m = true) :
    Memory.wfFrom lo (m.unlist a) = true := by
  induction m generalizing lo with
  | nil => rfl
  | cons c m ih =>
    obtain ⟨k, u⟩ := c
    simp only [Memory.wfFrom, Bool.and_eq_true, decide_eq_true_eq, Bool.not_eq_true'] at h
    obtain ⟨⟨⟨h1, h2⟩, h3⟩, h4⟩ := h
    simp only [Memory.unlist]
    split
    · exact ih lo (wfFrom_mono _ _ _ (by omega) h4)
    · simp only [Memory.wfFrom, Bool.and_eq_true, decide_eq_true_eq, Bool.not_eq_true']
      exact ⟨⟨⟨h1, h2⟩, h3⟩, ih (k + 1) h4⟩

/-- A write inside memory keeps the canonical form. -/
theorem Memory.wf_write (m : Memory) (a : Nat) (w : Byte) (ha : a < 4096) (h : m.wf = true) :
    (m.write a w).wf = true := by
  unfold Memory.write
  split <;> rename_i hw
  · exact wfFrom_unlist _ _ _ h
  · exact wfFrom_insert _ _ _ _ (Nat.zero_le _) ha hw h

/-- Writes inside memory keep the canonical form. -/
theorem Memory.wf_writeBytes (ws : List Byte) (m : Memory) (a : Nat) (ha : a + ws.length ≤ 4096)
    (h : m.wf = true) : (m.writeBytes a ws).wf = true := by
  induction ws generalizing m a with
  | nil => exact h
  | cons w ws ih =>
    simp only [List.length_cons] at ha
    exact ih _ _ (by omega) (wf_write _ _ _ (by omega) h)

/-- Every listed address of a canonical memory is at least the bound. -/
theorem Memory.find_none_below (m : Memory) (lo a : Nat) (h : Memory.wfFrom lo m = true) (ha : a < lo) :
    m.find a = none := by
  induction m generalizing lo with
  | nil => rfl
  | cons c m ih =>
    obtain ⟨k, u⟩ := c
    simp only [Memory.wfFrom, Bool.and_eq_true, decide_eq_true_eq, Bool.not_eq_true'] at h
    obtain ⟨⟨⟨h1, _⟩, _⟩, h4⟩ := h
    simp [Memory.find, show a ≠ k by omega, ih (k + 1) h4 (by omega)]

/-- The reset memory, which lists nothing, is canonical. -/
theorem Memory.wf_nil : Memory.wf [] = true := rfl

end Sys2Proof.Machine
end

