-- ==== Sys2Proof/Laws/State.lean ====
section
/-! SUPPORT. One lemma per field per named update of State, so that no later proof unfolds a record update. -/

namespace Sys2Proof.Machine

variable (s : State)

/-! ### setV -/

@[simp] theorem State.setV_v (r : Reg) (w : Byte) : (s.setV r w).v = s.v.set r w := rfl
@[simp] theorem State.setV_i (r : Reg) (w : Byte) : (s.setV r w).i = s.i := rfl
@[simp] theorem State.setV_pc (r : Reg) (w : Byte) : (s.setV r w).pc = s.pc := rfl
@[simp] theorem State.setV_sp (r : Reg) (w : Byte) : (s.setV r w).sp = s.sp := rfl
@[simp] theorem State.setV_stack (r : Reg) (w : Byte) : (s.setV r w).stack = s.stack := rfl
@[simp] theorem State.setV_dt (r : Reg) (w : Byte) : (s.setV r w).dt = s.dt := rfl
@[simp] theorem State.setV_st (r : Reg) (w : Byte) : (s.setV r w).st = s.st := rfl
@[simp] theorem State.setV_status (r : Reg) (w : Byte) : (s.setV r w).status = s.status := rfl
@[simp] theorem State.setV_mem (r : Reg) (w : Byte) : (s.setV r w).mem = s.mem := rfl
@[simp] theorem State.setV_fb (r : Reg) (w : Byte) : (s.setV r w).fb = s.fb := rfl
@[simp] theorem State.setV_keys (r : Reg) (w : Byte) : (s.setV r w).keys = s.keys := rfl
@[simp] theorem State.setV_keyInputs (r : Reg) (w : Byte) : (s.setV r w).keyInputs = s.keyInputs := rfl
@[simp] theorem State.setV_cycles (r : Reg) (w : Byte) : (s.setV r w).cycles = s.cycles := rfl
@[simp] theorem State.setV_randomInputs (r : Reg) (w : Byte) : (s.setV r w).randomInputs = s.randomInputs := rfl
@[simp] theorem State.setV_draws (r : Reg) (w : Byte) : (s.setV r w).draws = s.draws := rfl
@[simp] theorem State.setV_outputs (r : Reg) (w : Byte) : (s.setV r w).outputs = s.outputs := rfl

/-! ### setI -/

@[simp] theorem State.setI_v (w : Word) : (s.setI w).v = s.v := rfl
@[simp] theorem State.setI_i (w : Word) : (s.setI w).i = w := rfl
@[simp] theorem State.setI_pc (w : Word) : (s.setI w).pc = s.pc := rfl
@[simp] theorem State.setI_sp (w : Word) : (s.setI w).sp = s.sp := rfl
@[simp] theorem State.setI_stack (w : Word) : (s.setI w).stack = s.stack := rfl
@[simp] theorem State.setI_dt (w : Word) : (s.setI w).dt = s.dt := rfl
@[simp] theorem State.setI_st (w : Word) : (s.setI w).st = s.st := rfl
@[simp] theorem State.setI_status (w : Word) : (s.setI w).status = s.status := rfl
@[simp] theorem State.setI_mem (w : Word) : (s.setI w).mem = s.mem := rfl
@[simp] theorem State.setI_fb (w : Word) : (s.setI w).fb = s.fb := rfl
@[simp] theorem State.setI_keys (w : Word) : (s.setI w).keys = s.keys := rfl
@[simp] theorem State.setI_keyInputs (w : Word) : (s.setI w).keyInputs = s.keyInputs := rfl
@[simp] theorem State.setI_cycles (w : Word) : (s.setI w).cycles = s.cycles := rfl
@[simp] theorem State.setI_randomInputs (w : Word) : (s.setI w).randomInputs = s.randomInputs := rfl
@[simp] theorem State.setI_draws (w : Word) : (s.setI w).draws = s.draws := rfl
@[simp] theorem State.setI_outputs (w : Word) : (s.setI w).outputs = s.outputs := rfl

/-! ### setPc -/

@[simp] theorem State.setPc_v (w : Word) : (s.setPc w).v = s.v := rfl
@[simp] theorem State.setPc_i (w : Word) : (s.setPc w).i = s.i := rfl
@[simp] theorem State.setPc_pc (w : Word) : (s.setPc w).pc = w := rfl
@[simp] theorem State.setPc_sp (w : Word) : (s.setPc w).sp = s.sp := rfl
@[simp] theorem State.setPc_stack (w : Word) : (s.setPc w).stack = s.stack := rfl
@[simp] theorem State.setPc_dt (w : Word) : (s.setPc w).dt = s.dt := rfl
@[simp] theorem State.setPc_st (w : Word) : (s.setPc w).st = s.st := rfl
@[simp] theorem State.setPc_status (w : Word) : (s.setPc w).status = s.status := rfl
@[simp] theorem State.setPc_mem (w : Word) : (s.setPc w).mem = s.mem := rfl
@[simp] theorem State.setPc_fb (w : Word) : (s.setPc w).fb = s.fb := rfl
@[simp] theorem State.setPc_keys (w : Word) : (s.setPc w).keys = s.keys := rfl
@[simp] theorem State.setPc_keyInputs (w : Word) : (s.setPc w).keyInputs = s.keyInputs := rfl
@[simp] theorem State.setPc_cycles (w : Word) : (s.setPc w).cycles = s.cycles := rfl
@[simp] theorem State.setPc_randomInputs (w : Word) : (s.setPc w).randomInputs = s.randomInputs := rfl
@[simp] theorem State.setPc_draws (w : Word) : (s.setPc w).draws = s.draws := rfl
@[simp] theorem State.setPc_outputs (w : Word) : (s.setPc w).outputs = s.outputs := rfl

/-! ### setDt -/

@[simp] theorem State.setDt_v (w : Byte) : (s.setDt w).v = s.v := rfl
@[simp] theorem State.setDt_i (w : Byte) : (s.setDt w).i = s.i := rfl
@[simp] theorem State.setDt_pc (w : Byte) : (s.setDt w).pc = s.pc := rfl
@[simp] theorem State.setDt_sp (w : Byte) : (s.setDt w).sp = s.sp := rfl
@[simp] theorem State.setDt_stack (w : Byte) : (s.setDt w).stack = s.stack := rfl
@[simp] theorem State.setDt_dt (w : Byte) : (s.setDt w).dt = w := rfl
@[simp] theorem State.setDt_st (w : Byte) : (s.setDt w).st = s.st := rfl
@[simp] theorem State.setDt_status (w : Byte) : (s.setDt w).status = s.status := rfl
@[simp] theorem State.setDt_mem (w : Byte) : (s.setDt w).mem = s.mem := rfl
@[simp] theorem State.setDt_fb (w : Byte) : (s.setDt w).fb = s.fb := rfl
@[simp] theorem State.setDt_keys (w : Byte) : (s.setDt w).keys = s.keys := rfl
@[simp] theorem State.setDt_keyInputs (w : Byte) : (s.setDt w).keyInputs = s.keyInputs := rfl
@[simp] theorem State.setDt_cycles (w : Byte) : (s.setDt w).cycles = s.cycles := rfl
@[simp] theorem State.setDt_randomInputs (w : Byte) : (s.setDt w).randomInputs = s.randomInputs := rfl
@[simp] theorem State.setDt_draws (w : Byte) : (s.setDt w).draws = s.draws := rfl
@[simp] theorem State.setDt_outputs (w : Byte) : (s.setDt w).outputs = s.outputs := rfl

/-! ### setSt -/

@[simp] theorem State.setSt_v (w : Byte) : (s.setSt w).v = s.v := rfl
@[simp] theorem State.setSt_i (w : Byte) : (s.setSt w).i = s.i := rfl
@[simp] theorem State.setSt_pc (w : Byte) : (s.setSt w).pc = s.pc := rfl
@[simp] theorem State.setSt_sp (w : Byte) : (s.setSt w).sp = s.sp := rfl
@[simp] theorem State.setSt_stack (w : Byte) : (s.setSt w).stack = s.stack := rfl
@[simp] theorem State.setSt_dt (w : Byte) : (s.setSt w).dt = s.dt := rfl
@[simp] theorem State.setSt_st (w : Byte) : (s.setSt w).st = w := rfl
@[simp] theorem State.setSt_status (w : Byte) : (s.setSt w).status = s.status := rfl
@[simp] theorem State.setSt_mem (w : Byte) : (s.setSt w).mem = s.mem := rfl
@[simp] theorem State.setSt_fb (w : Byte) : (s.setSt w).fb = s.fb := rfl
@[simp] theorem State.setSt_keys (w : Byte) : (s.setSt w).keys = s.keys := rfl
@[simp] theorem State.setSt_keyInputs (w : Byte) : (s.setSt w).keyInputs = s.keyInputs := rfl
@[simp] theorem State.setSt_cycles (w : Byte) : (s.setSt w).cycles = s.cycles := rfl
@[simp] theorem State.setSt_randomInputs (w : Byte) : (s.setSt w).randomInputs = s.randomInputs := rfl
@[simp] theorem State.setSt_draws (w : Byte) : (s.setSt w).draws = s.draws := rfl
@[simp] theorem State.setSt_outputs (w : Byte) : (s.setSt w).outputs = s.outputs := rfl

/-! ### setMem -/

@[simp] theorem State.setMem_v (m : Memory) : (s.setMem m).v = s.v := rfl
@[simp] theorem State.setMem_i (m : Memory) : (s.setMem m).i = s.i := rfl
@[simp] theorem State.setMem_pc (m : Memory) : (s.setMem m).pc = s.pc := rfl
@[simp] theorem State.setMem_sp (m : Memory) : (s.setMem m).sp = s.sp := rfl
@[simp] theorem State.setMem_stack (m : Memory) : (s.setMem m).stack = s.stack := rfl
@[simp] theorem State.setMem_dt (m : Memory) : (s.setMem m).dt = s.dt := rfl
@[simp] theorem State.setMem_st (m : Memory) : (s.setMem m).st = s.st := rfl
@[simp] theorem State.setMem_status (m : Memory) : (s.setMem m).status = s.status := rfl
@[simp] theorem State.setMem_mem (m : Memory) : (s.setMem m).mem = m := rfl
@[simp] theorem State.setMem_fb (m : Memory) : (s.setMem m).fb = s.fb := rfl
@[simp] theorem State.setMem_keys (m : Memory) : (s.setMem m).keys = s.keys := rfl
@[simp] theorem State.setMem_keyInputs (m : Memory) : (s.setMem m).keyInputs = s.keyInputs := rfl
@[simp] theorem State.setMem_cycles (m : Memory) : (s.setMem m).cycles = s.cycles := rfl
@[simp] theorem State.setMem_randomInputs (m : Memory) : (s.setMem m).randomInputs = s.randomInputs := rfl
@[simp] theorem State.setMem_draws (m : Memory) : (s.setMem m).draws = s.draws := rfl
@[simp] theorem State.setMem_outputs (m : Memory) : (s.setMem m).outputs = s.outputs := rfl

/-! ### setFb -/

@[simp] theorem State.setFb_v (d : Display) : (s.setFb d).v = s.v := rfl
@[simp] theorem State.setFb_i (d : Display) : (s.setFb d).i = s.i := rfl
@[simp] theorem State.setFb_pc (d : Display) : (s.setFb d).pc = s.pc := rfl
@[simp] theorem State.setFb_sp (d : Display) : (s.setFb d).sp = s.sp := rfl
@[simp] theorem State.setFb_stack (d : Display) : (s.setFb d).stack = s.stack := rfl
@[simp] theorem State.setFb_dt (d : Display) : (s.setFb d).dt = s.dt := rfl
@[simp] theorem State.setFb_st (d : Display) : (s.setFb d).st = s.st := rfl
@[simp] theorem State.setFb_status (d : Display) : (s.setFb d).status = s.status := rfl
@[simp] theorem State.setFb_mem (d : Display) : (s.setFb d).mem = s.mem := rfl
@[simp] theorem State.setFb_fb (d : Display) : (s.setFb d).fb = d := rfl
@[simp] theorem State.setFb_keys (d : Display) : (s.setFb d).keys = s.keys := rfl
@[simp] theorem State.setFb_keyInputs (d : Display) : (s.setFb d).keyInputs = s.keyInputs := rfl
@[simp] theorem State.setFb_cycles (d : Display) : (s.setFb d).cycles = s.cycles := rfl
@[simp] theorem State.setFb_randomInputs (d : Display) : (s.setFb d).randomInputs = s.randomInputs := rfl
@[simp] theorem State.setFb_draws (d : Display) : (s.setFb d).draws = s.draws := rfl
@[simp] theorem State.setFb_outputs (d : Display) : (s.setFb d).outputs = s.outputs := rfl

/-! ### setStatus -/

@[simp] theorem State.setStatus_v (w : Status) : (s.setStatus w).v = s.v := rfl
@[simp] theorem State.setStatus_i (w : Status) : (s.setStatus w).i = s.i := rfl
@[simp] theorem State.setStatus_pc (w : Status) : (s.setStatus w).pc = s.pc := rfl
@[simp] theorem State.setStatus_sp (w : Status) : (s.setStatus w).sp = s.sp := rfl
@[simp] theorem State.setStatus_stack (w : Status) : (s.setStatus w).stack = s.stack := rfl
@[simp] theorem State.setStatus_dt (w : Status) : (s.setStatus w).dt = s.dt := rfl
@[simp] theorem State.setStatus_st (w : Status) : (s.setStatus w).st = s.st := rfl
@[simp] theorem State.setStatus_status (w : Status) : (s.setStatus w).status = w := rfl
@[simp] theorem State.setStatus_mem (w : Status) : (s.setStatus w).mem = s.mem := rfl
@[simp] theorem State.setStatus_fb (w : Status) : (s.setStatus w).fb = s.fb := rfl
@[simp] theorem State.setStatus_keys (w : Status) : (s.setStatus w).keys = s.keys := rfl
@[simp] theorem State.setStatus_keyInputs (w : Status) : (s.setStatus w).keyInputs = s.keyInputs := rfl
@[simp] theorem State.setStatus_cycles (w : Status) : (s.setStatus w).cycles = s.cycles := rfl
@[simp] theorem State.setStatus_randomInputs (w : Status) : (s.setStatus w).randomInputs = s.randomInputs := rfl
@[simp] theorem State.setStatus_draws (w : Status) : (s.setStatus w).draws = s.draws := rfl
@[simp] theorem State.setStatus_outputs (w : Status) : (s.setStatus w).outputs = s.outputs := rfl

/-! ### emit -/

@[simp] theorem State.emit_v (e : Event) : (s.emit e).v = s.v := rfl
@[simp] theorem State.emit_i (e : Event) : (s.emit e).i = s.i := rfl
@[simp] theorem State.emit_pc (e : Event) : (s.emit e).pc = s.pc := rfl
@[simp] theorem State.emit_sp (e : Event) : (s.emit e).sp = s.sp := rfl
@[simp] theorem State.emit_stack (e : Event) : (s.emit e).stack = s.stack := rfl
@[simp] theorem State.emit_dt (e : Event) : (s.emit e).dt = s.dt := rfl
@[simp] theorem State.emit_st (e : Event) : (s.emit e).st = s.st := rfl
@[simp] theorem State.emit_status (e : Event) : (s.emit e).status = s.status := rfl
@[simp] theorem State.emit_mem (e : Event) : (s.emit e).mem = s.mem := rfl
@[simp] theorem State.emit_fb (e : Event) : (s.emit e).fb = s.fb := rfl
@[simp] theorem State.emit_keys (e : Event) : (s.emit e).keys = s.keys := rfl
@[simp] theorem State.emit_keyInputs (e : Event) : (s.emit e).keyInputs = s.keyInputs := rfl
@[simp] theorem State.emit_cycles (e : Event) : (s.emit e).cycles = s.cycles := rfl
@[simp] theorem State.emit_randomInputs (e : Event) : (s.emit e).randomInputs = s.randomInputs := rfl
@[simp] theorem State.emit_draws (e : Event) : (s.emit e).draws = s.draws := rfl
@[simp] theorem State.emit_outputs (e : Event) : (s.emit e).outputs = e :: s.outputs := rfl

/-! ### advance -/

@[simp] theorem State.advance_v : (s.advance).v = s.v := rfl
@[simp] theorem State.advance_i : (s.advance).i = s.i := rfl
@[simp] theorem State.advance_pc : (s.advance).pc = s.pc + 2 := rfl
@[simp] theorem State.advance_sp : (s.advance).sp = s.sp := rfl
@[simp] theorem State.advance_stack : (s.advance).stack = s.stack := rfl
@[simp] theorem State.advance_dt : (s.advance).dt = s.dt := rfl
@[simp] theorem State.advance_st : (s.advance).st = s.st := rfl
@[simp] theorem State.advance_status : (s.advance).status = s.status := rfl
@[simp] theorem State.advance_mem : (s.advance).mem = s.mem := rfl
@[simp] theorem State.advance_fb : (s.advance).fb = s.fb := rfl
@[simp] theorem State.advance_keys : (s.advance).keys = s.keys := rfl
@[simp] theorem State.advance_keyInputs : (s.advance).keyInputs = s.keyInputs := rfl
@[simp] theorem State.advance_cycles : (s.advance).cycles = s.cycles := rfl
@[simp] theorem State.advance_randomInputs : (s.advance).randomInputs = s.randomInputs := rfl
@[simp] theorem State.advance_draws : (s.advance).draws = s.draws := rfl
@[simp] theorem State.advance_outputs : (s.advance).outputs = s.outputs := rfl

/-! ### skipIf -/

@[simp] theorem State.skipIf_v (c : Bool) : (s.skipIf c).v = s.v := rfl
@[simp] theorem State.skipIf_i (c : Bool) : (s.skipIf c).i = s.i := rfl
@[simp] theorem State.skipIf_pc (c : Bool) : (s.skipIf c).pc = s.pc + if c then 4 else 2 := rfl
@[simp] theorem State.skipIf_sp (c : Bool) : (s.skipIf c).sp = s.sp := rfl
@[simp] theorem State.skipIf_stack (c : Bool) : (s.skipIf c).stack = s.stack := rfl
@[simp] theorem State.skipIf_dt (c : Bool) : (s.skipIf c).dt = s.dt := rfl
@[simp] theorem State.skipIf_st (c : Bool) : (s.skipIf c).st = s.st := rfl
@[simp] theorem State.skipIf_status (c : Bool) : (s.skipIf c).status = s.status := rfl
@[simp] theorem State.skipIf_mem (c : Bool) : (s.skipIf c).mem = s.mem := rfl
@[simp] theorem State.skipIf_fb (c : Bool) : (s.skipIf c).fb = s.fb := rfl
@[simp] theorem State.skipIf_keys (c : Bool) : (s.skipIf c).keys = s.keys := rfl
@[simp] theorem State.skipIf_keyInputs (c : Bool) : (s.skipIf c).keyInputs = s.keyInputs := rfl
@[simp] theorem State.skipIf_cycles (c : Bool) : (s.skipIf c).cycles = s.cycles := rfl
@[simp] theorem State.skipIf_randomInputs (c : Bool) : (s.skipIf c).randomInputs = s.randomInputs := rfl
@[simp] theorem State.skipIf_draws (c : Bool) : (s.skipIf c).draws = s.draws := rfl
@[simp] theorem State.skipIf_outputs (c : Bool) : (s.skipIf c).outputs = s.outputs := rfl

/-! ### advanceI -/

@[simp] theorem State.advanceI_v (x : Reg) : (s.advanceI x).v = s.v := rfl
@[simp] theorem State.advanceI_i (x : Reg) : (s.advanceI x).i = BitVec.ofNat 16 (s.i.toNat + x.val + 1) := rfl
@[simp] theorem State.advanceI_pc (x : Reg) : (s.advanceI x).pc = s.pc := rfl
@[simp] theorem State.advanceI_sp (x : Reg) : (s.advanceI x).sp = s.sp := rfl
@[simp] theorem State.advanceI_stack (x : Reg) : (s.advanceI x).stack = s.stack := rfl
@[simp] theorem State.advanceI_dt (x : Reg) : (s.advanceI x).dt = s.dt := rfl
@[simp] theorem State.advanceI_st (x : Reg) : (s.advanceI x).st = s.st := rfl
@[simp] theorem State.advanceI_status (x : Reg) : (s.advanceI x).status = s.status := rfl
@[simp] theorem State.advanceI_mem (x : Reg) : (s.advanceI x).mem = s.mem := rfl
@[simp] theorem State.advanceI_fb (x : Reg) : (s.advanceI x).fb = s.fb := rfl
@[simp] theorem State.advanceI_keys (x : Reg) : (s.advanceI x).keys = s.keys := rfl
@[simp] theorem State.advanceI_keyInputs (x : Reg) : (s.advanceI x).keyInputs = s.keyInputs := rfl
@[simp] theorem State.advanceI_cycles (x : Reg) : (s.advanceI x).cycles = s.cycles := rfl
@[simp] theorem State.advanceI_randomInputs (x : Reg) : (s.advanceI x).randomInputs = s.randomInputs := rfl
@[simp] theorem State.advanceI_draws (x : Reg) : (s.advanceI x).draws = s.draws := rfl
@[simp] theorem State.advanceI_outputs (x : Reg) : (s.advanceI x).outputs = s.outputs := rfl

/-! ### loadBlock -/

@[simp] theorem State.loadBlock_v (x : Reg) : (s.loadBlock x).v = s.loadRegs (allRegs.take (x.val + 1)) s.v := rfl
@[simp] theorem State.loadBlock_i (x : Reg) : (s.loadBlock x).i = s.i := rfl
@[simp] theorem State.loadBlock_pc (x : Reg) : (s.loadBlock x).pc = s.pc := rfl
@[simp] theorem State.loadBlock_sp (x : Reg) : (s.loadBlock x).sp = s.sp := rfl
@[simp] theorem State.loadBlock_stack (x : Reg) : (s.loadBlock x).stack = s.stack := rfl
@[simp] theorem State.loadBlock_dt (x : Reg) : (s.loadBlock x).dt = s.dt := rfl
@[simp] theorem State.loadBlock_st (x : Reg) : (s.loadBlock x).st = s.st := rfl
@[simp] theorem State.loadBlock_status (x : Reg) : (s.loadBlock x).status = s.status := rfl
@[simp] theorem State.loadBlock_mem (x : Reg) : (s.loadBlock x).mem = s.mem := rfl
@[simp] theorem State.loadBlock_fb (x : Reg) : (s.loadBlock x).fb = s.fb := rfl
@[simp] theorem State.loadBlock_keys (x : Reg) : (s.loadBlock x).keys = s.keys := rfl
@[simp] theorem State.loadBlock_keyInputs (x : Reg) : (s.loadBlock x).keyInputs = s.keyInputs := rfl
@[simp] theorem State.loadBlock_cycles (x : Reg) : (s.loadBlock x).cycles = s.cycles := rfl
@[simp] theorem State.loadBlock_randomInputs (x : Reg) : (s.loadBlock x).randomInputs = s.randomInputs := rfl
@[simp] theorem State.loadBlock_draws (x : Reg) : (s.loadBlock x).draws = s.draws := rfl
@[simp] theorem State.loadBlock_outputs (x : Reg) : (s.loadBlock x).outputs = s.outputs := rfl

/-! ### setResultThenFlag -/

@[simp] theorem State.setResultThenFlag_v (x : Reg) (w : Byte) (f : Bool) : (s.setResultThenFlag x w f).v = (s.v.set x w).set vF (flagByte f) := rfl
@[simp] theorem State.setResultThenFlag_i (x : Reg) (w : Byte) (f : Bool) : (s.setResultThenFlag x w f).i = s.i := rfl
@[simp] theorem State.setResultThenFlag_pc (x : Reg) (w : Byte) (f : Bool) : (s.setResultThenFlag x w f).pc = s.pc := rfl
@[simp] theorem State.setResultThenFlag_sp (x : Reg) (w : Byte) (f : Bool) : (s.setResultThenFlag x w f).sp = s.sp := rfl
@[simp] theorem State.setResultThenFlag_stack (x : Reg) (w : Byte) (f : Bool) : (s.setResultThenFlag x w f).stack = s.stack := rfl
@[simp] theorem State.setResultThenFlag_dt (x : Reg) (w : Byte) (f : Bool) : (s.setResultThenFlag x w f).dt = s.dt := rfl
@[simp] theorem State.setResultThenFlag_st (x : Reg) (w : Byte) (f : Bool) : (s.setResultThenFlag x w f).st = s.st := rfl
@[simp] theorem State.setResultThenFlag_status (x : Reg) (w : Byte) (f : Bool) : (s.setResultThenFlag x w f).status = s.status := rfl
@[simp] theorem State.setResultThenFlag_mem (x : Reg) (w : Byte) (f : Bool) : (s.setResultThenFlag x w f).mem = s.mem := rfl
@[simp] theorem State.setResultThenFlag_fb (x : Reg) (w : Byte) (f : Bool) : (s.setResultThenFlag x w f).fb = s.fb := rfl
@[simp] theorem State.setResultThenFlag_keys (x : Reg) (w : Byte) (f : Bool) : (s.setResultThenFlag x w f).keys = s.keys := rfl
@[simp] theorem State.setResultThenFlag_keyInputs (x : Reg) (w : Byte) (f : Bool) : (s.setResultThenFlag x w f).keyInputs = s.keyInputs := rfl
@[simp] theorem State.setResultThenFlag_cycles (x : Reg) (w : Byte) (f : Bool) : (s.setResultThenFlag x w f).cycles = s.cycles := rfl
@[simp] theorem State.setResultThenFlag_randomInputs (x : Reg) (w : Byte) (f : Bool) : (s.setResultThenFlag x w f).randomInputs = s.randomInputs := rfl
@[simp] theorem State.setResultThenFlag_draws (x : Reg) (w : Byte) (f : Bool) : (s.setResultThenFlag x w f).draws = s.draws := rfl
@[simp] theorem State.setResultThenFlag_outputs (x : Reg) (w : Byte) (f : Bool) : (s.setResultThenFlag x w f).outputs = s.outputs := rfl

/-! ### Reading registers -/

@[simp] theorem State.getV_eq (r : Reg) : s.getV r = s.v[r] := rfl

/-- A register after a write: the written one, or as before. -/
theorem getElem_set_reg (v : Vector Byte 16) (x r : Reg) (w : Byte) :
    (v.set x w)[r] = if r = x then w else v[r] := by
  simp only [Fin.getElem_fin, Vector.getElem_set]
  by_cases h : r = x
  · simp [h]
  · have : ¬ x.val = r.val := fun h' => h (Fin.ext h'.symm)
    simp [h, this]

/-- A register after a result and then a flag: VF holds the flag, whatever the destination (spec/10_state.md R13). -/
theorem getElem_result_then_flag (v : Vector Byte 16) (x r : Reg) (w f : Byte) :
    ((v.set x w).set vF f)[r] = if r = vF then f else if r = x then w else v[r] := by
  rw [getElem_set_reg, getElem_set_reg]

end Sys2Proof.Machine
end

