-- ==== Sys2Proof/Laws/Ops.lean ====
section
/-! SUPPORT. What each shared operation can do, said once: raising a fault, the range check, the stack, fetch, the ports
and the loader. -/

namespace Sys2Proof.Machine

/-! ### Raising and range checks -/

theorem raise_eq (f : FatalFault) (s : State) : raise f s = .next { s with status := .faulted f } := rfl

theorem rangeViolation_none (first count : Nat) :
    rangeViolation first count = none ↔ count = 0 ∨ first + count ≤ 0x1000 := by
  unfold rangeViolation; split <;> simp_all

theorem rangeViolation_some (first count a : Nat) :
    rangeViolation first count = some a ↔
      0 < count ∧ 0x1000 < first + count ∧ a = max first 0x1000 := by
  unfold rangeViolation; split <;> simp_all <;> omega

/-- An instruction whose addresses all exist has its effect. -/
theorem guardRange_inside (first count : Nat) (acc : Access) (s after : State)
    (h : count = 0 ∨ first + count ≤ 0x1000) : guardRange first count acc s after = .next after := by
  simp [guardRange, (rangeViolation_none first count).2 h]

/-- One whose addresses do not all exist raises MemoryOutOfRange. -/
theorem guardRange_outside (first count : Nat) (acc : Access) (s after : State)
    (h0 : 0 < count) (h : 0x1000 < first + count) :
    guardRange first count acc s after =
      raise (.memoryOutOfRange (max first 0x1000) acc) s := by
  simp [guardRange, (rangeViolation_some first count _).2 ⟨h0, h, rfl⟩]

/-- The range check has these two outcomes only. -/
theorem guardRange_cases {first count : Nat} {acc : Access} {s after t : State}
    (h : guardRange first count acc s after = .next t) :
    ((count = 0 ∨ first + count ≤ 0x1000) ∧ t = after) ∨
    (0 < count ∧ 0x1000 < first + count ∧
      t = { s with status := .faulted (.memoryOutOfRange (max first 0x1000) acc) }) := by
  by_cases hc : count = 0 ∨ first + count ≤ 0x1000
  · rw [guardRange_inside _ _ _ _ _ hc] at h
    exact .inl ⟨hc, by injection h with h; exact h.symm⟩
  · rw [guardRange_outside _ _ _ _ _ (by omega) (by omega), raise_eq] at h
    exact .inr ⟨by omega, by omega, by injection h with h; exact h.symm⟩

/-! ### The call stack -/

theorem State.push_full (s : State) (w : Word) (h : s.sp.val = 16) : s.push w = none := by
  simp [State.push, h]

/-- A push where there is room. -/
theorem State.push_room (s : State) (w : Word) (h : s.sp.val < 16) :
    s.push w = some { s with stack := s.stack.set s.sp.val w, sp := ⟨s.sp.val + 1, by omega⟩ } := by
  simp [State.push, h]

theorem State.pop_empty (s : State) (h : s.sp.val = 0) : s.pop = none := by
  simp [State.pop, h]

/-- A pop where there is an entry. -/
theorem State.pop_entry (s : State) (h : 0 < s.sp.val) :
    s.pop = some (s.stack[s.sp.val - 1], { s with sp := ⟨s.sp.val - 1, by omega⟩ }) := by
  simp [State.pop, h]

/-! ### Fetch -/

theorem fetch_inside (s : State) (h : s.pc.toNat ≤ 0x0FFE) :
    fetch s = .ok (s.mem.read s.pc.toNat ++ s.mem.read (s.pc.toNat + 1)) := by
  simp [fetch, h]

theorem fetch_outside (s : State) (h : 0x0FFE < s.pc.toNat) : fetch s = .error (.fetchOutOfRange s.pc) := by
  simp [fetch]; omega

/-! ### The random port -/

/-- A draw changes only the random port's own fields. -/
theorem State.drawRandom_state (s : State) :
    s.drawRandom.2 = { s with randomInputs := s.randomInputs.tail, draws := s.draws + 1 } := by
  unfold State.drawRandom; split <;> rename_i h <;> simp [h]

theorem State.drawRandom_queued (s : State) (q : Byte) (qs : List Byte) (h : s.randomInputs = q :: qs) :
    s.drawRandom.1 = q := by
  simp [State.drawRandom, h]

theorem State.drawRandom_free (s : State) (h : s.randomInputs = []) :
    s.drawRandom.1 = Config.randomByte s.draws := by
  simp [State.drawRandom, h]

/-! ### The key port -/

theorem mem_allKeys (k : Fin 16) : k ∈ allKeys := by revert k; decide

theorem mem_pressedKeys (keys : Word) (k : Fin 16) : k ∈ pressedKeys keys ↔ keys.getLsbD k.val = true := by
  simp [pressedKeys, mem_allKeys, keyPressed]

/-- KeyPick answers none exactly where no key is pressed. -/
theorem keyPickWith_none (choice : Word → Fin 16) (keys : Word) :
    keyPickWith choice keys = none ↔ ∀ k : Fin 16, keys.getLsbD k.val = false := by
  have hm := mem_pressedKeys keys
  unfold keyPickWith
  split <;> rename_i h <;> simp only [h] at hm
  · simpa using hm
  · rename_i k; simpa using ⟨k, (hm k).1 (by simp)⟩
  · rename_i k _ _; simpa using ⟨k, (hm k).1 (by simp)⟩

/-- KeyPick answers a pressed key, whatever the preference. -/
theorem keyPickWith_some (choice : Word → Fin 16) (keys : Word) (k : Fin 16)
    (h : keyPickWith choice keys = some k) : keys.getLsbD k.val = true := by
  have hm := mem_pressedKeys keys
  unfold keyPickWith at h
  split at h <;> rename_i hp <;> simp only [hp] at hm
  · cases h
  · injection h with h; subst h; exact (hm _).1 (by simp)
  · injection h with h; subst h
    split
    · assumption
    · exact (hm _).1 (by simp)

/-! ### Outcomes -/

@[simp] theorem onNext_next (f : State → State) (s : State) : onNext f (.next s) = .next (f s) := rfl

theorem onNext_eq_next {f : State → State} {r : Result} {t : State} (h : onNext f r = .next t) :
    ∃ s, r = .next s ∧ t = f s := by
  cases r with
  | next s => exact ⟨s, rfl, by injection h with h; exact h.symm⟩
  | fault r => cases r
  | refused r => cases h

/-! ### The loader -/

theorem State.load_fits (image : List Byte) (s : State) (h : image.length ≤ 3584) :
    s.load image = .ok { s with mem := s.mem.writeBytes 0x200 image } := by
  simp [State.load, Config.maxImage, h, State.setMem]

theorem State.load_long (image : List Byte) (s : State) (h : 3584 < image.length) :
    s.load image = .error (.tooLong image.length) := by
  simp [State.load, Config.maxImage]; omega

end Sys2Proof.Machine
end

