-- ==== Sys2Proof/Laws/Display.lean ====
section
/-! SUPPORT. What one toggle, a list of toggles and a sprite do to the display (spec/20_memory.md R41,
spec/43_display.md R111). -/

namespace Sys2Proof.Machine

/-! ### One pixel -/

/-- Inverting a pixel inverts it and no other. -/
theorem Display.pixel_flip (d : Display) (p q : Config.Pixel) :
    (d.flip p).pixel q = (d.pixel q != decide (q = p)) := by
  obtain ⟨pc, pr⟩ := p
  obtain ⟨qc, qr⟩ := q
  simp only [Display.pixel, Display.flip, Fin.getElem_fin, Vector.getElem_set, Prod.mk.injEq]
  by_cases hr : pr = qr
  · subst hr
    by_cases hc : qc = pc
    · subst hc; simp
    · have : ¬ qc.val = pc.val := fun h => hc (Fin.ext h)
      simp [hc, this]
  · have h1 : ¬ pr.val = qr.val := fun h => hr (Fin.ext h)
    have h2 : ¬ qr = pr := fun h => hr h.symm
    simp [h1, h2]

/-- Displays that agree on every pixel are equal. -/
theorem Display.ext_pixel (d e : Display) (h : ∀ p, d.pixel p = e.pixel p) : d = e := by
  apply Vector.ext
  intro r hr
  apply BitVec.eq_of_getLsbD_eq
  intro c hc
  exact h (⟨c, hc⟩, ⟨r, hr⟩)

theorem Display.pixel_clear (p : Config.Pixel) : Display.clear.pixel p = false := by
  simp [Display.clear, Display.pixel]

/-- A toggle answers the pixel's new state: on exactly if it was off. -/
theorem Display.toggle_some (dm : DisplayMap) (d : Display) (x y : Nat) (p : Config.Pixel)
    (h : dm x y = some p) : d.toggle dm x y = (d.flip p, !d.pixel p) := by
  simp [Display.toggle, h, Display.pixel_flip]

/-- A clipped toggle changes nothing and answers 1. -/
theorem Display.toggle_none (dm : DisplayMap) (d : Display) (x y : Nat) (h : dm x y = none) :
    d.toggle dm x y = (d, true) := by
  simp [Display.toggle, h]

/-! ### A list of toggles -/

/-- How often a list of coordinates reaches a pixel. -/
def hits (dm : DisplayMap) (p : Config.Pixel) (ps : List (Nat × Nat)) : Nat :=
  ps.countP fun c => dm c.1 c.2 == some p

/-- A list of toggles inverts a pixel as often as it reaches it, in any order. -/
theorem pixel_toggleAll (dm : DisplayMap) (ps : List (Nat × Nat)) (d : Display) (coll : Bool)
    (p : Config.Pixel) :
    (toggleAll dm ps (d, coll)).1.pixel p = (d.pixel p != decide (hits dm p ps % 2 = 1)) := by
  induction ps generalizing d coll with
  | nil => simp [toggleAll, hits]
  | cons c ps ih =>
    obtain ⟨x, y⟩ := c
    simp only [toggleAll, ih, hits, List.countP_cons]
    cases hm : dm x y with
    | none => simp [Display.toggle_none _ _ _ _ hm]; rfl
    | some q =>
      rw [Display.toggle_some _ _ _ _ _ hm]
      simp only [Display.pixel_flip]
      by_cases hq : p = q
      · subst hq
        rcases Nat.mod_two_eq_zero_or_one (ps.countP fun c => dm c.1 c.2 == some p) with h | h <;>
          simp [h, Nat.add_mod]
      · have hq' : ¬ q = p := fun h => hq h.symm
        simp [hq, hq']; rfl

/-- Toggling the same coordinates twice restores the display, whatever the map. -/
theorem toggleAll_twice (dm : DisplayMap) (ps : List (Nat × Nat)) (d : Display) (c c' : Bool) :
    (toggleAll dm ps ((toggleAll dm ps (d, c)).1, c')).1 = d := by
  apply Display.ext_pixel
  intro p
  simp [pixel_toggleAll]

/-- No two of the coordinates reach the same pixel. -/
def Apart (dm : DisplayMap) (ps : List (Nat × Nat)) : Prop :=
  ps.Pairwise fun a b => ∀ p, dm a.1 a.2 = some p → dm b.1 b.2 ≠ some p

/-- Where no two toggles reach the same pixel, each reached pixel is inverted once. -/
theorem pixel_toggleAll_apart (dm : DisplayMap) (ps : List (Nat × Nat)) (h : Apart dm ps) (d : Display)
    (coll : Bool) (p : Config.Pixel) :
    (toggleAll dm ps (d, coll)).1.pixel p = true ↔
      ¬ (d.pixel p = true ↔ ∃ c ∈ ps, dm c.1 c.2 = some p) := by
  have key : ((∃ c ∈ ps, dm c.1 c.2 = some p) → hits dm p ps = 1) ∧
      ((¬ ∃ c ∈ ps, dm c.1 c.2 = some p) → hits dm p ps = 0) := by
    induction ps with
    | nil => simp [hits]
    | cons c ps ih =>
      rw [Apart, List.pairwise_cons] at h
      have ih := ih h.2
      simp only [hits, List.countP_cons] at ih ⊢
      by_cases hc : dm c.1 c.2 = some p
      · have : ¬ ∃ c ∈ ps, dm c.1 c.2 = some p := fun ⟨b, hb, hbp⟩ => h.1 b hb p hc hbp
        simp [hc, ih.2 this]
      · simpa [hc] using ih
  rw [pixel_toggleAll]
  by_cases he : ∃ c ∈ ps, dm c.1 c.2 = some p
  · simp [key.1 he, he]
  · simp [key.2 he, he]

/-- Where no two toggles reach the same pixel, the collision is whether a reached pixel was on. -/
theorem collision_toggleAll_apart (dm : DisplayMap) (ps : List (Nat × Nat)) (h : Apart dm ps) (d : Display)
    (coll : Bool) :
    (toggleAll dm ps (d, coll)).2 = true ↔
      coll = true ∨ ∃ c ∈ ps, ∃ p, dm c.1 c.2 = some p ∧ d.pixel p = true := by
  induction ps generalizing d coll with
  | nil => simp [toggleAll]
  | cons c ps ih =>
    rw [Apart, List.pairwise_cons] at h
    obtain ⟨x, y⟩ := c
    rw [toggleAll, ih h.2]
    cases hm : dm x y with
    | none => simp [Display.toggle_none _ _ _ _ hm, hm]
    | some q =>
      rw [Display.toggle_some _ _ _ _ _ hm]
      have key : ∀ c ∈ ps, ∀ p, dm c.1 c.2 = some p → (d.flip q).pixel p = d.pixel p := by
        intro c hc p hp
        have hne : p ≠ q := fun hpq => h.1 c hc q hm (hpq ▸ hp)
        simp [Display.pixel_flip, hne]
      simp only [Bool.or_eq_true, Bool.not_not, List.mem_cons, exists_eq_or_imp, hm, Option.some.injEq,
        exists_eq_left', or_assoc]
      refine or_congr_right (or_congr_right ?_)
      constructor
      · rintro ⟨c, hc, p, hp, hd⟩; exact ⟨c, hc, p, hp, by rw [← key c hc p hp]; exact hd⟩
      · rintro ⟨c, hc, p, hp, hd⟩; exact ⟨c, hc, p, hp, by rw [key c hc p hp]; exact hd⟩

/-! ### A sprite -/

/-- The coordinates of a row. -/
theorem mem_rowPixels (x0 y : Nat) (b : Byte) (c : Nat × Nat) :
    c ∈ rowPixels x0 y b ↔ ∃ col < 8, b.getLsbD (7 - col) = true ∧ c = (x0 + col, y) := by
  simp only [rowPixels, List.mem_map, List.mem_filter, List.mem_range]
  constructor
  · rintro ⟨col, ⟨h, hb⟩, rfl⟩; exact ⟨col, h, hb, rfl⟩
  · rintro ⟨col, h, hb, rfl⟩; exact ⟨col, ⟨h, hb⟩, rfl⟩

/-- The coordinates of a sprite. -/
theorem mem_spritePixels (x0 y : Nat) (bs : List Byte) (c : Nat × Nat) :
    c ∈ spritePixels x0 y bs ↔ ∃ (row : Nat) (h : row < bs.length) (col : Nat), col < 8 ∧
      bs[row].getLsbD (7 - col) = true ∧ c = (x0 + col, y + row) := by
  induction bs generalizing y with
  | nil => simp [spritePixels]
  | cons b bs ih =>
    simp only [spritePixels, List.mem_append, mem_rowPixels, ih]
    constructor
    · rintro (⟨col, h, hb, rfl⟩ | ⟨row, hr, col, h, hb, rfl⟩)
      · exact ⟨0, by simp, col, h, by simpa using hb, rfl⟩
      · exact ⟨row + 1, by simpa using hr, col, h, by simpa using hb, by simp; omega⟩
    · rintro ⟨row, hr, col, h, hb, rfl⟩
      cases row with
      | zero => exact .inl ⟨col, h, by simpa using hb, rfl⟩
      | succ row =>
        exact .inr ⟨row, by simpa using hr, col, h, by simpa using hb, by simp; omega⟩

/-- The coordinates of a sprite are listed once each. -/
theorem nodup_spritePixels (x0 y : Nat) (bs : List Byte) : (spritePixels x0 y bs).Nodup := by
  induction bs generalizing y with
  | nil => exact List.nodup_nil
  | cons b bs ih =>
    rw [spritePixels, List.nodup_append]
    refine ⟨?_, ih (y + 1), ?_⟩
    · refine (List.nodup_range.filter _).map ?_
      intro a a' h; simpa using h
    · intro c hc c' hc' he
      subst he
      obtain ⟨col, _, _, rfl⟩ := (mem_rowPixels _ _ _ _).1 hc
      obtain ⟨row, _, col', _, _, h⟩ := (mem_spritePixels _ _ _ _).1 hc'
      simp only [Prod.mk.injEq] at h
      omega

/-- The coordinates Dxyn toggles. -/
theorem State.mem_drawPixels (s : State) (x y : Reg) (n : Nat) (c : Nat × Nat) :
    c ∈ s.drawPixels x y n ↔ ∃ row col, row < n ∧ col < 8 ∧
      (s.mem.read (s.i.toNat + row)).getLsbD (7 - col) = true ∧
      c = (s.v[x].toNat + col, s.v[y].toNat + row) := by
  simp only [State.drawPixels, mem_spritePixels, Memory.length_readBytes, State.getV_eq, Memory.getElem_readBytes]
  constructor
  · rintro ⟨row, hr, col, hc, hb, rfl⟩; exact ⟨row, col, hr, hc, hb, rfl⟩
  · rintro ⟨row, col, hr, hc, hb, rfl⟩; exact ⟨row, hr, col, hc, hb, rfl⟩

/-- Where the map sends different coordinates of a sprite to different pixels, its toggles are apart. -/
theorem apart_spritePixels (dm : DisplayMap) (x0 y : Nat) (bs : List Byte)
    (h : ∀ r < bs.length, ∀ c < 8, ∀ r' < bs.length, ∀ c' < 8, ∀ p,
      dm (x0 + c) (y + r) = some p → dm (x0 + c') (y + r') = some p → r = r' ∧ c = c') :
    Apart dm (spritePixels x0 y bs) := by
  refine (nodup_spritePixels x0 y bs).imp_of_mem ?_
  intro a b ha hb hne p hp hp'
  obtain ⟨r, hr, c, hc, _, rfl⟩ := (mem_spritePixels _ _ _ _).1 ha
  obtain ⟨r', hr', c', hc', _, rfl⟩ := (mem_spritePixels _ _ _ _).1 hb
  obtain ⟨rfl, rfl⟩ := h r hr c hc r' hr' c' hc' p hp hp'
  exact hne rfl

/-! ### The named maps -/

theorem displayMapWith_inside (off : DisplayMap) (x y : Nat) (hx : x < 64) (hy : y < 32) :
    displayMapWith off x y = some (⟨x, hx⟩, ⟨y, hy⟩) := by
  simp [displayMapWith, hx, hy]

/-- `wrap` keeps coordinates inside the grid: it is one of the maps `displayMapWith` makes. -/
theorem wrapMap_eq : wrapMap = displayMapWith wrapMap := by
  funext x y
  unfold displayMapWith
  split
  · rename_i h; simp [wrapMap, Nat.mod_eq_of_lt h.1, Nat.mod_eq_of_lt h.2]
  · rfl

theorem wrapMap_some (x y : Nat) (p : Config.Pixel) :
    wrapMap x y = some p ↔ p.1.val = x % 64 ∧ p.2.val = y % 32 := by
  obtain ⟨⟨c, hc⟩, ⟨r, hr⟩⟩ := p
  simp [wrapMap, eq_comm]

theorem clipMap_some (x y : Nat) (p : Config.Pixel) :
    clipMap x y = some p ↔ p.1.val = x ∧ p.2.val = y := by
  obtain ⟨⟨c, hc⟩, ⟨r, hr⟩⟩ := p
  unfold clipMap displayMapWith
  split <;> rename_i h
  · simp [eq_comm]
  · simp; omega

/-- Under both named maps, eight columns and at most 32 rows reach different pixels. -/
theorem named_map_injective (dm : DisplayMap) (hdm : dm = wrapMap ∨ dm = clipMap) (x0 y0 n : Nat) (hn : n ≤ 32)
    (r c r' c' : Nat) (hr : r < n) (hc : c < 8) (hr' : r' < n) (hc' : c' < 8) (p : Config.Pixel)
    (h : dm (x0 + c) (y0 + r) = some p) (h' : dm (x0 + c') (y0 + r') = some p) : r = r' ∧ c = c' := by
  rcases hdm with rfl | rfl
  · rw [wrapMap_some] at h h'; omega
  · rw [clipMap_some] at h h'; omega

/-! ### The whole instruction -/

theorem drawWith_fb (dm : DisplayMap) (x y : Reg) (n : Nat) (s : State) :
    (drawWith dm x y n s).fb = (toggleAll dm (s.drawPixels x y n) (s.fb, false)).1 := rfl

/-- VF after a draw is the collision flag. -/
theorem drawWith_vF (dm : DisplayMap) (x y : Reg) (n : Nat) (s : State) :
    (drawWith dm x y n s).v[vF] = flagByte (toggleAll dm (s.drawPixels x y n) (s.fb, false)).2 := by
  refine (getElem_set_reg s.v vF vF _).trans ?_
  rw [if_pos rfl]

/-- A draw changes the display, VF and pc only. -/
theorem drawWith_frame (dm : DisplayMap) (x y : Reg) (n : Nat) (s : State) :
    drawWith dm x y n s = { s with fb := (drawWith dm x y n s).fb, v := (drawWith dm x y n s).v, pc := s.pc + 2 } := rfl

end Sys2Proof.Machine
end

