-- ==== Sys2Proof/Laws/Operands.lean ====
section
/-! SUPPORT. What each operand form and flag computation of Machine/Operands.lean and Machine/Flags.lean is, said once. -/

namespace Sys2Proof.Machine

/-! ### Zero extension and addresses -/

theorem zextAddr_toNat (nnn : Addr12) : (zextAddr nnn).toNat = nnn.toNat := by
  have := nnn.isLt
  simp [zextAddr]; omega

theorem zextByte_toNat (b : Byte) : (zextByte b).toNat = b.toNat := by
  have := b.isLt
  simp [zextByte]; omega

theorem glyphAddr_toNat (b : Byte) : (glyphAddr b).toNat = b.toNat * 5 := by
  have := b.isLt
  simp only [glyphAddr, BitVec.toNat_ofNat]; omega

/-- I after a block transfer that stayed in memory. -/
theorem State.advanceI_toNat (s : State) (x : Reg) (h : s.i.toNat + x.val ≤ 0x0FFF) :
    (s.advanceI x).i.toNat = s.i.toNat + x.val + 1 := by
  simp [State.advanceI]; omega

/-! ### Flags -/

theorem flagByte_eq_one (b : Bool) : flagByte b = 1 ↔ b = true := by revert b; decide

theorem flagByte_zero_or_one (b : Bool) : flagByte b = 1 ∨ flagByte b = 0 := by revert b; decide

theorem flagByte_decide (p : Prop) [Decidable p] : flagByte (decide p) = if p then 1 else 0 := by
  by_cases h : p
  · rw [if_pos h, decide_eq_true h]; rfl
  · rw [if_neg h, decide_eq_false h]; rfl

theorem shrOut_toNat (b : Byte) : (flagByte (shrOut b)).toNat = b.toNat % 2 := by
  simp only [shrOut, BitVec.getLsbD, Nat.testBit_zero, flagByte_decide]
  split <;> simp <;> omega

theorem shlOut_toNat (b : Byte) : (flagByte (shlOut b)).toNat = b.toNat / 128 := by
  have := b.isLt
  have h : shlOut b = decide (128 ≤ b.toNat) := by
    rw [shlOut, show 7 = 8 - 1 by rfl, ← BitVec.msb_eq_getLsbD_last, BitVec.msb_eq_decide]
  rw [h, flagByte_decide]
  split <;> simp <;> omega

/-! ### Blocks of registers -/

theorem State.blockRegs_length (s : State) (x : Reg) : (s.blockRegs x).length = x.val + 1 := by
  have := x.isLt
  simp [State.blockRegs]

theorem State.blockRegs_getElem (s : State) (x : Reg) (k : Nat) (h : k < (s.blockRegs x).length) :
    (s.blockRegs x)[k] = s.v[k]'(by have := x.isLt; rw [s.blockRegs_length] at h; omega) := by
  simp [State.blockRegs]

theorem mem_take_allRegs (x r : Reg) : r ∈ allRegs.take (x.val + 1) ↔ r ≤ x := by revert x r; decide

/-- A register after a block load: loaded where it is listed, else as before. -/
theorem State.getElem_loadRegs (s : State) (rs : List Reg) (v : Vector Byte 16) (r : Reg) :
    (s.loadRegs rs v)[r] = if r ∈ rs then s.blockByte r.val else v[r] := by
  induction rs generalizing v with
  | nil => simp [State.loadRegs]
  | cons q rs ih =>
    rw [State.loadRegs, ih, getElem_set_reg]
    by_cases h : r ∈ rs
    · simp [h]
    · by_cases hq : r = q <;> simp [h, hq]

/-- The registers after `loadBlock`. -/
theorem State.getElem_loadBlock (s : State) (x r : Reg) :
    (s.loadBlock x).v[r] = if r ≤ x then s.mem.read (s.i.toNat + r.val) else s.v[r] := by
  refine (s.getElem_loadRegs _ s.v r).trans ?_
  simp only [mem_take_allRegs, State.blockByte]

/-! ### Digits -/

theorem bcdDigits_length (b : Byte) : (bcdDigits b).length = 3 := rfl

theorem bcdDigits_toNat (b : Byte) :
    (bcdDigits b).map BitVec.toNat = [b.toNat / 100, b.toNat / 10 % 10, b.toNat % 10] := by
  have := b.isLt
  simp only [bcdDigits, List.map, BitVec.toNat_ofNat]
  congr 1
  · omega
  · congr 1
    · omega
    · congr 1; omega

/-! ### Key index -/

theorem keyIndex_none (b : Byte) : keyIndex b = none ↔ 15 < b.toNat := by
  unfold keyIndex; split <;> simp <;> omega

theorem keyIndex_some (b : Byte) (h : b.toNat ≤ 15) : keyIndex b = some ⟨b.toNat, by omega⟩ := by
  unfold keyIndex; rw [dif_pos (by omega)]

end Sys2Proof.Machine
end

