-- ==== Sys2Proof/Laws/PerInstr.lean ====
section
/-! SUPPORT. Families of statements about every instruction as syntax, one lemma per constructor. -/

namespace Sys2Proof.Laws.RoundTrip

/-- The decoder reads an instruction's own encoding back. -/
def Statement (i : Instr) : Prop := i.wellFormed = true → decodeWord (encode i) = some i

/-- The fields of an instruction's packed word are its operands, so the family and the key select its own row. -/
theorem of_fields (i : Instr) : Statement i := by
  intro h
  cases i with
  | cls => decide
  | ret => decide
  | drw x y n =>
    have hn : n < 16 := by simpa [Instr.wellFormed] using h
    simp [encode, decodeWord, nOf, Nat.mod_eq_of_lt hn]
  | _ => simp [encode, decodeWord, decodeFam8, decodeFamE, decodeFamF]

theorem cls : Statement .cls := of_fields _

theorem ret : Statement .ret := of_fields _

theorem jp (nnn : Addr12) : Statement (.jp nnn) := of_fields _

theorem call (nnn : Addr12) : Statement (.call nnn) := of_fields _

theorem seImm (x : Reg) (kk : Byte) : Statement (.seImm x kk) := of_fields _

theorem sneImm (x : Reg) (kk : Byte) : Statement (.sneImm x kk) := of_fields _

theorem seReg (x y : Reg) : Statement (.seReg x y) := of_fields _

theorem ldImm (x : Reg) (kk : Byte) : Statement (.ldImm x kk) := of_fields _

theorem addImm (x : Reg) (kk : Byte) : Statement (.addImm x kk) := of_fields _

theorem ldReg (x y : Reg) : Statement (.ldReg x y) := of_fields _

theorem or (x y : Reg) : Statement (.or x y) := of_fields _

theorem and (x y : Reg) : Statement (.and x y) := of_fields _

theorem xor (x y : Reg) : Statement (.xor x y) := of_fields _

theorem addReg (x y : Reg) : Statement (.addReg x y) := of_fields _

theorem sub (x y : Reg) : Statement (.sub x y) := of_fields _

theorem shr (x y : Reg) : Statement (.shr x y) := of_fields _

theorem subn (x y : Reg) : Statement (.subn x y) := of_fields _

theorem shl (x y : Reg) : Statement (.shl x y) := of_fields _

theorem sneReg (x y : Reg) : Statement (.sneReg x y) := of_fields _

theorem ldI (nnn : Addr12) : Statement (.ldI nnn) := of_fields _

theorem jpV0 (nnn : Addr12) : Statement (.jpV0 nnn) := of_fields _

theorem rnd (x : Reg) (kk : Byte) : Statement (.rnd x kk) := of_fields _

theorem drw (x y : Reg) (n : Nat) : Statement (.drw x y n) := of_fields _

theorem skp (x : Reg) : Statement (.skp x) := of_fields _

theorem sknp (x : Reg) : Statement (.sknp x) := of_fields _

theorem ldVxDt (x : Reg) : Statement (.ldVxDt x) := of_fields _

theorem ldVxK (x : Reg) : Statement (.ldVxK x) := of_fields _

theorem ldDtVx (x : Reg) : Statement (.ldDtVx x) := of_fields _

theorem ldStVx (x : Reg) : Statement (.ldStVx x) := of_fields _

theorem addI (x : Reg) : Statement (.addI x) := of_fields _

theorem ldF (x : Reg) : Statement (.ldF x) := of_fields _

theorem ldB (x : Reg) : Statement (.ldB x) := of_fields _

theorem ldMemVx (x : Reg) : Statement (.ldMemVx x) := of_fields _

theorem ldVxMem (x : Reg) : Statement (.ldVxMem x) := of_fields _

end Sys2Proof.Laws.RoundTrip
end

