-- ==== Sys2Proof/Laws/Step.lean ====
section
/-! SUPPORT. What a cycle can do, said once (spec/60_exceptions.md R145): the end of a cycle, the two outcomes of an
instruction, and the inversion of a step. -/

namespace Sys2Proof.Machine

/-! ### The end of a cycle -/

@[simp] theorem endCycle_faulted (s : State) (f : FatalFault) (h : s.status = .faulted f) : endCycle s = s := by
  simp [endCycle, h]

theorem endCycle_running (s : State) (h : s.status = .running) :
    endCycle s = nextKeys (pulseIf (beep s) (tick s)) := by
  simp [endCycle, h]

/-- The decrement saturates at zero. -/
theorem decTimer_toNat (t : Byte) : (decTimer t).toNat = t.toNat - 1 := by
  unfold decTimer
  split <;> rename_i h
  · simp [h]
  · have : t.toNat ≠ 0 := fun h0 => h (BitVec.eq_of_toNat_eq h0)
    have := t.isLt
    rw [BitVec.toNat_sub_of_le (by simp [BitVec.le_def]; omega)]; rfl

/-- `nextKeys` presents the next key vector and changes nothing else. -/
theorem nextKeys_eq (s : State) :
    nextKeys s = { s with keys := s.keyInputs.headD (Config.keyVector (s.cycles + 1)),
                          keyInputs := s.keyInputs.tail, cycles := s.cycles + 1 } := by
  unfold nextKeys; split <;> rename_i h <;> simp [h]

/-- A running cycle's end in full. -/
theorem endCycle_eq (s : State) (h : s.status = .running) :
    endCycle s = { s with
      dt := decTimer s.dt, st := decTimer s.st,
      outputs := if s.st = 1 then .audioTrigger :: s.outputs else s.outputs,
      keys := s.keyInputs.headD (Config.keyVector (s.cycles + 1)),
      keyInputs := s.keyInputs.tail, cycles := s.cycles + 1 } := by
  rw [endCycle_running s h, nextKeys_eq]
  have hb : beep s = true ↔ s.st = 1 := beq_iff_eq
  by_cases hs : s.st = 1
  · rw [if_pos hs, pulseIf, if_pos (hb.2 hs)]; rfl
  · rw [if_neg hs, pulseIf, if_neg (hs ∘ hb.1)]; rfl

@[simp] theorem endCycle_status (s : State) : (endCycle s).status = s.status := by
  cases h : s.status with
  | running => rw [endCycle_eq s h]; exact h
  | faulted f => rw [endCycle_faulted s f h]; exact h

/-! ### One step -/

theorem step_faulted (s : State) (f : FatalFault) (h : s.status = .faulted f) : step s = .next s := by
  simp [step, h, faultedCycle]

theorem step_fetch_fault (s : State) (h : s.status = .running) (hp : 0x0FFE < s.pc.toNat) :
    step s = .next { s with status := .faulted (.fetchOutOfRange s.pc) } := by
  simp [step, h, cycle, fetch_outside s hp, raise_eq]

/-- A running core that can fetch executes the opcode at pc and ends its cycle. -/
theorem step_execWord (s : State) (h : s.status = .running) (hp : s.pc.toNat ≤ 0x0FFE) :
    step s = onNext endCycle (execWord (opcodeAt s) s) := by
  simp [step, h, cycle, fetch_inside s hp, opcodeAt]

/-- Everything a step that answers `t` can have done. -/
theorem step_cases {s t : State} (h : step s = .next t) :
    (∃ f, s.status = .faulted f ∧ t = s) ∨
    (s.status = .running ∧ 0x0FFE < s.pc.toNat ∧
      t = { s with status := .faulted (.fetchOutOfRange s.pc) }) ∨
    (s.status = .running ∧ s.pc.toNat ≤ 0x0FFE ∧
      ∃ u, execWord (opcodeAt s) s = .next u ∧ t = endCycle u) := by
  cases hs : s.status with
  | faulted f =>
    rw [step_faulted s f hs] at h
    injection h with h; exact .inl ⟨f, rfl, h.symm⟩
  | running =>
    by_cases hp : s.pc.toNat ≤ 0x0FFE
    · rw [step_execWord s hs hp] at h
      obtain ⟨u, hu, ht⟩ := onNext_eq_next h
      exact .inr (.inr ⟨rfl, hp, u, hu, ht⟩)
    · rw [step_fetch_fault s hs (by omega)] at h
      injection h with h; exact .inr (.inl ⟨rfl, by omega, h.symm⟩)

/-- The execute step of an unrecognised opcode. -/
theorem execWord_none (op : Word) (s : State) (h : decodeWord op = none) :
    execWord op s = .next { s with pc := s.pc + 2, outputs := .decodeError op s.pc :: s.outputs } := by
  simp [execWord, h, unrecognised, State.emit, State.advance, State.setPc]

theorem execWord_some (op : Word) (s : State) (i : Instr) (h : decodeWord op = some i) :
    execWord op s = exec i s := by
  simp [execWord, h]

/-! ### One instruction -/

/-- 00EE with an entry to pop. -/
theorem exec_ret_entry (s : State) (h : 0 < s.sp.val) :
    exec .ret s = .next { s with sp := ⟨s.sp.val - 1, by omega⟩, pc := s.stack[s.sp.val - 1] + 2 } := by
  simp only [exec, execRet, State.pop_entry s h]; rfl

theorem exec_ret_empty (s : State) (h : s.sp.val = 0) :
    exec .ret s = .next { s with status := .faulted (.stackUnderflow s.pc) } := by
  simp only [exec, execRet, State.pop_empty s h]; rfl

/-- 2nnn with room on the stack. -/
theorem exec_call_room (nnn : Addr12) (s : State) (h : s.sp.val < 16) :
    exec (.call nnn) s = .next { s with
      stack := s.stack.set s.sp.val s.pc, sp := ⟨s.sp.val + 1, by omega⟩, pc := zextAddr nnn } := by
  simp only [exec, execCall, State.push_room s _ h]; rfl

theorem exec_call_full (nnn : Addr12) (s : State) (h : s.sp.val = 16) :
    exec (.call nnn) s = .next { s with status := .faulted (.stackOverflow s.pc) } := by
  simp only [exec, execCall, State.push_full s _ h]; rfl

/-- An instruction always answers a next state, and it keeps STATUS or raises a fatal fault and changes nothing else. -/
theorem exec_outcome (i : Instr) (s : State) :
    ∃ t, exec i s = .next t ∧ (t.status = s.status ∨ ∃ f, t = { s with status := .faulted f }) := by
  cases i with
  | ret =>
    by_cases h : 0 < s.sp.val
    · exact ⟨_, exec_ret_entry s h, .inl rfl⟩
    · exact ⟨_, exec_ret_empty s (by omega), .inr ⟨_, rfl⟩⟩
  | call nnn =>
    by_cases h : s.sp.val < 16
    · exact ⟨_, exec_call_room nnn s h, .inl rfl⟩
    · exact ⟨_, exec_call_full nnn s (by omega), .inr ⟨_, rfl⟩⟩
  | skp x =>
    simp only [exec, execSkp]
    split
    · exact ⟨_, rfl, .inl rfl⟩
    · exact ⟨_, rfl, .inr ⟨_, rfl⟩⟩
  | sknp x =>
    simp only [exec, execSknp]
    split
    · exact ⟨_, rfl, .inl rfl⟩
    · exact ⟨_, rfl, .inr ⟨_, rfl⟩⟩
  | ldVxK x =>
    refine ⟨_, rfl, .inl ?_⟩
    cases keyPickWith Config.keyChoice s.keys <;> rfl
  | rnd x kk => exact ⟨_, rfl, .inl (by simp [State.drawRandom_state])⟩
  | ldB x =>
    simp only [exec, execLdB, guardRange]
    split
    · exact ⟨_, rfl, .inl rfl⟩
    · exact ⟨_, rfl, .inr ⟨_, rfl⟩⟩
  | ldMemVx x =>
    simp only [exec, execLdMemVx, guardRange]
    split
    · exact ⟨_, rfl, .inl rfl⟩
    · exact ⟨_, rfl, .inr ⟨_, rfl⟩⟩
  | ldVxMem x =>
    simp only [exec, execLdVxMem, guardRange]
    split
    · exact ⟨_, rfl, .inl rfl⟩
    · exact ⟨_, rfl, .inr ⟨_, rfl⟩⟩
  | drw x y n =>
    simp only [exec, execDrw, guardRange]
    split
    · exact ⟨_, rfl, .inl rfl⟩
    · exact ⟨_, rfl, .inr ⟨_, rfl⟩⟩
  | _ => exact ⟨_, rfl, .inl rfl⟩

end Sys2Proof.Machine
end

