-- ==== Sys2Proof/Tests/Slice0.lean ====
section
/-! SUPPORT. The model's own tests: the well-formedness smoke, decoding from words written out from the patterns of
spec/30_encoding.md, single cycles whose expected results are vectors of spec/95_test_vectors.md (named in the comments),
and for every obligation with hypotheses a witness that meets them. -/

namespace Sys2Proof.Tests

open Sys2Proof Sys2Proof.Machine

/-! ### Helpers -/

/-- The reset state with an opcode at pc = 0x0200 and no key pressed, in this cycle or the next. -/
def base (op : Word) : State :=
  { State.reset with keys := 0, keyInputs := [0] }.withFetchWord 16 op.toNat

/-- The same with some general registers set. -/
def withV (op : Word) (vs : List (Reg × Byte)) : State :=
  vs.foldl (fun s rv => s.setV rv.1 rv.2) (base op)

/-- `withV` with I set. -/
def withI (op : Word) (i : Word) (vs : List (Reg × Byte)) : State := (withV op vs).setI i

/-- Bytes placed in memory. -/
def withMem (s : State) (a : Nat) (ws : List Byte) : State := s.setMem (s.mem.writeBytes a ws)

/-- What one cycle leaves, seen through `f`. -/
def after {α : Type} (s : State) (f : State → α) : Option α := (stepped s).map f

/-- An outcome is a next state with a property. -/
def check (r : Result) (p : State → Prop) [DecidablePred p] : Bool :=
  match r with
  | .next t => decide (p t)
  | .fault _ => false
  | .refused _ => false

theorem of_check {r : Result} {p : State → Prop} [DecidablePred p] (h : check r p = true) :
    ∃ t, r = .next t ∧ p t := by
  cases r with
  | next t => exact ⟨t, rfl, of_decide_eq_true h⟩
  | fault f => cases h
  | refused f => cases h

/-! ### WellFormed: what the checks refuse -/

theorem test_drw_height_16_refused : Instr.wellFormed (.drw 0 0 16) = false := by decide

theorem test_drw_height_15_accepted : Instr.wellFormed (.drw 0 0 15) = true := by decide

theorem test_image_3585_refused : imageFits (List.replicate 3585 0) = false := by
  rw [imageFits, List.length_replicate]; decide

theorem test_image_3584_accepted : imageFits (List.replicate 3584 0) = true := by
  rw [imageFits, List.length_replicate]; decide

/-! ### Decoding, from words written bit by bit (30_encoding.md R51, R52, R56) -/

theorem test_decode_control :
    decodeWord 0b0000000011100000 = some .cls ∧
    decodeWord 0b0000000011101110 = some .ret ∧
    decodeWord 0b0000101011100000 = some .cls ∧
    decodeWord 0b0001001000110100 = some (.jp 0x234) ∧
    decodeWord 0b0010111111110001 = some (.call 0xFF1) ∧
    decodeWord 0b0011001111110000 = some (.seImm 3 0xF0) ∧
    decodeWord 0b0100001100101010 = some (.sneImm 3 0x2A) ∧
    decodeWord 0b0101101010110000 = some (.seReg 0xA 0xB) ∧
    decodeWord 0b1001101010110000 = some (.sneReg 0xA 0xB) ∧
    decodeWord 0b1011111111111111 = some (.jpV0 0xFFF) := by decide

theorem test_decode_alu :
    decodeWord 0b0110101000000101 = some (.ldImm 0xA 0x05) ∧
    decodeWord 0b0111001000000101 = some (.addImm 2 0x05) ∧
    decodeWord 0b1000000100100000 = some (.ldReg 1 2) ∧
    decodeWord 0b1000000100100001 = some (.or 1 2) ∧
    decodeWord 0b1000000100100010 = some (.and 1 2) ∧
    decodeWord 0b1000000100100011 = some (.xor 1 2) ∧
    decodeWord 0b1000000100100100 = some (.addReg 1 2) ∧
    decodeWord 0b1000000100100101 = some (.sub 1 2) ∧
    decodeWord 0b1000000100100110 = some (.shr 1 2) ∧
    decodeWord 0b1000101010110111 = some (.subn 0xA 0xB) ∧
    decodeWord 0b1000101010111110 = some (.shl 0xA 0xB) ∧
    decodeWord 0b1100001100001111 = some (.rnd 3 0x0F) := by decide

theorem test_decode_memory_display_keys :
    decodeWord 0b1010001011110000 = some (.ldI 0x2F0) ∧
    decodeWord 0b1101000100100101 = some (.drw 1 2 5) ∧
    decodeWord 0b1110101010011110 = some (.skp 0xA) ∧
    decodeWord 0b1110101010100001 = some (.sknp 0xA) ∧
    decodeWord 0b1111101000000111 = some (.ldVxDt 0xA) ∧
    decodeWord 0b1111101000001010 = some (.ldVxK 0xA) ∧
    decodeWord 0b1111101000010101 = some (.ldDtVx 0xA) ∧
    decodeWord 0b1111101000011000 = some (.ldStVx 0xA) ∧
    decodeWord 0b1111101000011110 = some (.addI 0xA) ∧
    decodeWord 0b1111101000101001 = some (.ldF 0xA) ∧
    decodeWord 0b1111101000110011 = some (.ldB 0xA) ∧
    decodeWord 0b1111101001010101 = some (.ldMemVx 0xA) ∧
    decodeWord 0b1111101001100101 = some (.ldVxMem 0xA) := by decide

/-- The unrecognised opcodes of 95_test_vectors.md 2.6. -/
theorem test_decode_unrecognised :
    ([0x0000, 0x0123, 0x00E1, 0x5121, 0x8128, 0x812F, 0x9121, 0xE09F, 0xE000, 0xF000, 0xF01F, 0xF075,
      0xF085, 0xFFFF] : List Word).all (fun op => (decodeWord op).isNone) = true := by decide

theorem test_decode_rejects_by_name :
    decode [0x51, 0x21, 0x00] = .error (.unrecognised 0x5121) ∧ decode [0x12] = .error .truncated := by decide

/-- The host's two probes: its word decodes, and the first step from reset runs it (6A05: VA = 5). -/
theorem test_host_probe :
    decodeTableWord 16 0x6A05 = some (.ldImm 0xA 0x05) ∧
    after (State.reset.withFetchWord 16 0x6A05) (fun t => (t.v[0xA], t.pc)) = some (0x05, 0x0202) := by decide

/-! ### Single cycles: control transfer (95_test_vectors.md 2.1) -/

/-- CT1. -/
theorem test_ret : after { base 0x00EE with sp := 1, stack := (Vector.replicate 16 0).set 0 0x0204 }
    (fun t => (t.pc, t.sp)) = some (0x0206, 0) := by decide

/-- CT2: no tick. -/
theorem test_ret_underflow : after { base 0x00EE with dt := 5 } (fun t => (t.pc, t.status, t.dt)) =
    some (0x0200, .faulted (.stackUnderflow 0x0200), 5) := by decide

/-- CT4. -/
theorem test_jp : after (base 0x1234) (·.pc) = some 0x0234 := by decide

/-- CT7, at 0x0200. -/
theorem test_call : after { base 0x2300 with sp := 15 } (fun t => (t.pc, t.sp, t.stack[15])) =
    some (0x0300, 16, 0x0200) := by decide

/-- CT8, at 0x0200. -/
theorem test_call_overflow : after { base 0x2300 with sp := 16 } (fun t => (t.pc, t.sp, t.status)) =
    some (0x0200, 16, .faulted (.stackOverflow 0x0200)) := by decide

/-- CT10. -/
theorem test_jp_v0 : after (withV 0xBFFF [(0, 0xFF)]) (·.pc) = some 0x10FE := by decide

/-- CT11, CT12. -/
theorem test_se_imm : after (withV 0x332A [(3, 0x2A)]) (·.pc) = some 0x0204 ∧
    after (withV 0x332A [(3, 0x2B)]) (·.pc) = some 0x0202 := by decide

/-- CT13, CT14. -/
theorem test_sne_imm : after (withV 0x432A [(3, 0x2A)]) (·.pc) = some 0x0202 ∧
    after (withV 0x432A [(3, 0x00)]) (·.pc) = some 0x0204 := by decide

/-- CT15, CT16. -/
theorem test_se_reg : after (withV 0x5120 [(1, 7), (2, 7)]) (·.pc) = some 0x0204 ∧
    after (withV 0x5120 [(1, 7), (2, 8)]) (·.pc) = some 0x0202 := by decide

/-- CT18, CT19. -/
theorem test_sne_reg : after (withV 0x9120 [(1, 7), (2, 8)]) (·.pc) = some 0x0204 ∧
    after (withV 0x9120 [(1, 7), (2, 7)]) (·.pc) = some 0x0202 := by decide

/-- CT24. -/
theorem test_fetch_out_of_range : after { base 0 with pc := 0x0FFF } (fun t => (t.pc, t.status)) =
    some (0x0FFF, .faulted (.fetchOutOfRange 0x0FFF)) := by decide

/-! ### Single cycles: arithmetic (95_test_vectors.md 2.2) -/

/-- AL1. -/
theorem test_ld_imm : after (base 0x6A05) (fun t => (t.v[0xA], t.pc)) = some (0x05, 0x0202) := by decide

/-- AL3. -/
theorem test_add_imm : after (withV 0x7205 [(2, 0xFE), (15, 0x55)]) (fun t => (t.v[2], t.v[15])) =
    some (0x03, 0x55) := by decide

/-- AL6, the operand unchanged. -/
theorem test_ld_reg : after (withV 0x8120 [(1, 0x11), (2, 0x22)]) (fun t => (t.v[1], t.v[2])) =
    some (0x22, 0x22) := by decide

/-- AL9. -/
theorem test_or : after (withV 0x8121 [(1, 0xF0), (2, 0x0F), (15, 0x55)]) (fun t => (t.v[1], t.v[15])) =
    some (0xFF, 0x55) := by decide

/-- AL10. -/
theorem test_and : after (withV 0x8122 [(1, 0xF3), (2, 0x3C), (15, 0x55)]) (fun t => (t.v[1], t.v[15])) =
    some (0x30, 0x55) := by decide

/-- AL11. -/
theorem test_xor : after (withV 0x8123 [(1, 0xFF), (2, 0x0F), (15, 0x55)]) (fun t => (t.v[1], t.v[15])) =
    some (0xF0, 0x55) := by decide

/-- AL13. -/
theorem test_add_reg : after (withV 0x8124 [(1, 0xC8), (2, 0x64)]) (fun t => (t.v[1], t.v[15])) =
    some (0x2C, 0x01) := by decide

/-- AL18: the flag is the last write. -/
theorem test_add_reg_into_vf : after (withV 0x8F14 [(15, 0x10), (1, 0x20)]) (fun t => t.v[15]) = some 0x00 := by
  decide

/-- AL21, AL23. -/
theorem test_sub : after (withV 0x8125 [(1, 0x05), (2, 0x0A)]) (fun t => (t.v[1], t.v[15])) = some (0xFB, 0x00) ∧
    after (withV 0x8125 [(1, 0x07), (2, 0x07)]) (fun t => (t.v[1], t.v[15])) = some (0x00, 0x01) := by decide

/-- AL28. -/
theorem test_subn : after (withV 0x8127 [(1, 0x05), (2, 0x0A)]) (fun t => (t.v[1], t.v[15])) =
    some (0x05, 0x01) := by decide

/-- AL31. -/
theorem test_subn_into_vf : after (withV 0x8F17 [(15, 0x09), (1, 0x03)]) (fun t => t.v[15]) = some 0x00 := by decide

/-- SH1, both values of ShiftSource. -/
theorem test_shr : (shrWith .vx 1 2 (withV 0 [(1, 0x05), (2, 0x08)])).v.toList.take 3 = [0x00, 0x02, 0x08] ∧
    (shrWith .vy 1 2 (withV 0 [(1, 0x05), (2, 0x08)])).v.toList.take 3 = [0x00, 0x04, 0x08] := by decide

/-- SH4. -/
theorem test_shr_into_vf : (shrWith .vx 15 1 (withV 0 [(15, 0x03), (1, 0x02)])).v[15] = 0x01 ∧
    (shrWith .vy 15 1 (withV 0 [(15, 0x03), (1, 0x02)])).v[15] = 0x00 := by decide

/-- SH6, both values of ShiftSource. -/
theorem test_shl : (shlWith .vx 1 2 (withV 0 [(1, 0x81), (2, 0x40)])).v.toList.take 3 = [0x00, 0x02, 0x40] ∧
    (shlWith .vy 1 2 (withV 0 [(1, 0x81), (2, 0x40)])).v.toList.take 3 = [0x00, 0x80, 0x40] := by decide

/-- SH8. -/
theorem test_shl_into_vf : (shlWith .vx 15 1 (withV 0 [(15, 0x40), (1, 0x80)])).v[15] = 0x00 ∧
    (shlWith .vy 15 1 (withV 0 [(15, 0x40), (1, 0x80)])).v[15] = 0x01 := by decide

/-- AL32. -/
theorem test_rnd : after { base 0xC30F with randomInputs := [0xB7, 0xFF] } (fun t => (t.v[3], t.randomInputs)) =
    some (0x07, [0xFF]) := by decide

/-! ### Single cycles: index and memory (95_test_vectors.md 2.3) -/

/-- IX1. -/
theorem test_ld_i : after (withI 0xA2F0 0xFFFF []) (·.i) = some 0x02F0 := by decide

/-- IX6: the flag is from the unreduced sum. -/
theorem test_add_i : after (withI 0xF11E 0xFFFF [(1, 1)]) (fun t => (t.i, t.v[15])) = some (0x0000, 0x01) := by decide

/-- IX4: the flag is written when nothing overflows. -/
theorem test_add_i_no_overflow : after (withI 0xF11E 0x0FFF [(15, 7)]) (fun t => (t.i, t.v[15])) =
    some (0x0FFF, 0x00) := by decide

/-- IX11. -/
theorem test_ld_f : after (withV 0xF429 [(4, 0xFF)]) (·.i) = some 0x04FB := by decide

/-- IX14. -/
theorem test_ld_b : after (withI 0xF133 0x0FFD [(1, 0xFF)]) (fun t => (t.mem.readBytes 0xFFD 3, t.i)) =
    some ([2, 5, 5], 0x0FFD) := by decide

/-- IX15. -/
theorem test_ld_b_out_of_range : after (withI 0xF133 0x0FFE [(1, 0xFF)])
    (fun t => (t.mem.readBytes 0xFFE 2, t.pc, t.status)) =
    some ([0, 0], 0x0200, .faulted (.memoryOutOfRange 0x1000 .write)) := by decide

/-- IX18. -/
theorem test_ld_mem_vx : after (withI 0xF255 0x0400 [(0, 0x11), (1, 0x22), (2, 0x33), (3, 0x44)])
    (fun t => (t.mem.readBytes 0x400 4, t.i)) = some ([0x11, 0x22, 0x33, 0x00], 0x0403) := by decide

/-- IX22. -/
theorem test_ld_mem_vx_out_of_range : after (withI 0xF055 0x1000 [(0, 1)]) (fun t => (t.i, t.status)) =
    some (0x1000, .faulted (.memoryOutOfRange 0x1000 .write)) := by decide

/-- IX23. -/
theorem test_ld_vx_mem : after (withMem (withI 0xF265 0x0400 [(3, 0x99)]) 0x400 [0x11, 0x22, 0x33, 0x44])
    (fun t => (t.v.toList.take 4, t.i)) = some ([0x11, 0x22, 0x33, 0x99], 0x0403) := by decide

/-- IX24. -/
theorem test_ld_vx_mem_out_of_range : after (withI 0xF165 0x0FFF [(0, 3)]) (fun t => (t.v[0], t.i, t.status)) =
    some (3, 0x0FFF, .faulted (.memoryOutOfRange 0x1000 .read)) := by decide

/-! ### Single cycles: display (95_test_vectors.md 2.4) -/

/-- DP9. -/
theorem test_cls : after { base 0x00E0 with fb := Vector.replicate 32 5 } (fun t => t.fb.toList) =
    some (List.replicate 32 0) := by decide

/-- DP5, the second draw: one collision is enough. -/
theorem test_drw : after { withMem (withI 0xD011 0x0300 []) 0x300 [0x60] with fb := (Vector.replicate 32 0).set 0 5 }
    (fun t => (t.fb[0], t.v[15])) = some (3, 1) := by decide

/-- DP7w and DP7c: the two named maps beyond the edges. -/
theorem test_drw_maps :
    ((drawWith wrapMap 0 1 2 (withMem (withI 0 0x0300 [(0, 0xFF), (1, 0xFF)]) 0x300 [0xFF, 0x81])).fb[31],
     (drawWith wrapMap 0 1 2 (withMem (withI 0 0x0300 [(0, 0xFF), (1, 0xFF)]) 0x300 [0xFF, 0x81])).fb[0]) =
      (0x800000000000007F, 0x8000000000000040) ∧
    (drawWith clipMap 0 1 2 (withMem (withI 0 0x0300 [(0, 0xFF), (1, 0xFF)]) 0x300 [0xFF, 0x81])).fb.toList =
      List.replicate 32 0 := by decide

/-! ### Single cycles: keys and timers (95_test_vectors.md 2.5) -/

/-- KY1, KY2. -/
theorem test_skp : after { withV 0xE59E [(5, 0x0A)] with keys := 0x0400 } (·.pc) = some 0x0204 ∧
    after { withV 0xE59E [(5, 0x0A)] with keys := 0xFBFF } (·.pc) = some 0x0202 := by decide

/-- KY5. -/
theorem test_skp_index : after { withV 0xE59E [(5, 0x10)] with keys := 0xFFFF } (fun t => (t.pc, t.status)) =
    some (0x0200, .faulted (.keyIndexOutOfRange 0x10 0x0200)) := by decide

/-- KY3, KY4. -/
theorem test_sknp : after (withV 0xE5A1 [(5, 0x0A)]) (·.pc) = some 0x0204 ∧
    after { withV 0xE5A1 [(5, 0x0A)] with keys := 0x0400 } (·.pc) = some 0x0202 := by decide

/-- KY7: waiting, and the tick still happens. -/
theorem test_ld_vx_k_waits : after { base 0xF30A with dt := 5 } (fun t => (t.pc, t.v[3], t.dt)) =
    some (0x0200, 0, 4) := by decide

/-- KY8. -/
theorem test_ld_vx_k : after { base 0xF30A with keys := 0x0080 } (fun t => (t.pc, t.v[3])) =
    some (0x0202, 7) := by decide

/-- KY11. -/
theorem test_ld_vx_dt : after { base 0xF407 with dt := 0x2A } (fun t => (t.v[4], t.dt)) = some (0x2A, 0x29) := by
  decide

/-- KY13. -/
theorem test_ld_dt_vx : after (withV 0xF415 [(4, 0x3C)]) (·.dt) = some 0x3B := by decide

/-- KY18. -/
theorem test_ld_st_vx_pulse : after (withV 0xF418 [(4, 0x01)]) (fun t => (t.st, t.outputs)) =
    some (0, [.audioTrigger]) := by decide

/-- KY20: no pulse, the tick saw 0. -/
theorem test_ld_st_vx_silent : after { base 0xF418 with st := 1 } (fun t => (t.st, t.outputs)) = some (0, []) := by
  decide

/-- 95_test_vectors.md 2.6: a decode error, with the tick and the pulse as usual. -/
theorem test_decode_error : after { base 0x5121 with dt := 3, st := 1 } (fun t => (t.pc, t.dt, t.st, t.outputs)) =
    some (0x0202, 2, 0, [.audioTrigger, .decodeError 0x5121 0x0200]) := by decide

/-- The codes of R130. -/
theorem test_codes : (FatalFault.stackOverflow 0).code = 1 ∧ (FatalFault.stackUnderflow 0).code = 2 ∧
    (FatalFault.memoryOutOfRange 0 .read).code = 3 ∧ (FatalFault.fetchOutOfRange 0).code = 4 ∧
    (FatalFault.keyIndexOutOfRange 0 0).code = 5 ∧ (Event.decodeError 0 0).code = some 16 ∧
    (LoadError.tooLong 0).code = 32 := by decide

/-! ### Witnesses: states and operands that meet the hypotheses of the obligations -/

/-- DecodeReadsBackEveryEncoding, at the largest operands. -/
theorem witness_DecodeReadsBackEveryEncoding : Instr.wellFormed (.drw 15 15 15) = true := by decide

/-- EncodeReturnsTheRecognisedWord: family 0 with ignored bits, and the first word above it. -/
theorem witness_EncodeReturnsTheRecognisedWord :
    decodeWord 0x0FEE = some .ret ∧ decodeWord 0x1000 = some (.jp 0x000) ∧
    (0x0FEE : Word).toNat < 0x1000 ∧ ¬ (0x1000 : Word).toNat < 0x1000 := by decide

/-- A running core at the last fetchable address, with an opcode there. -/
def lastFetch (op : Word) : State :=
  withMem { base 0 with pc := 0x0FFE } 0xFFE [op.extractLsb' 8 8, op.extractLsb' 0 8]

/-- StepRunsTheDecodedInstruction, where the instruction runs and where it raises a fault. -/
theorem witness_StepRunsTheDecodedInstruction :
    ((lastFetch 0x6A05).status = .running ∧ (lastFetch 0x6A05).pc.toNat ≤ 0x0FFE ∧
      decodeWord ((lastFetch 0x6A05).mem.read (lastFetch 0x6A05).pc.toNat ++
        (lastFetch 0x6A05).mem.read ((lastFetch 0x6A05).pc.toNat + 1)) = some (.ldImm 0xA 0x05)) ∧
    (∃ t, exec (.ldImm 0xA 0x05) (lastFetch 0x6A05) = .next t ∧ t.status = .running) ∧
    ((base 0x00EE).status = .running ∧ (base 0x00EE).pc.toNat ≤ 0x0FFE ∧
      decodeWord ((base 0x00EE).mem.read (base 0x00EE).pc.toNat ++
        (base 0x00EE).mem.read ((base 0x00EE).pc.toNat + 1)) = some .ret) ∧
    (∃ t, exec .ret (base 0x00EE) = .next t ∧ t.status ≠ .running) :=
  ⟨by decide, of_check (by decide), by decide, of_check (by decide)⟩

/-- EndOfCycleTicksAndPulses: a queued key vector, none, and a sound timer of 1. -/
theorem witness_EndOfCycleTicksAndPulses :
    ({ base 0 with st := 1 }.status = .running ∧ { base 0 with st := 1 }.keyInputs = [0]) ∧
    (State.reset.status = .running ∧ State.reset.keyInputs = []) := by decide

/-- TimerUnitTicks and AudioPulsesExactlyWhenSoundTimerEnds: a cycle that runs on, with the sound timer at 1, and one
that faults. -/
theorem witness_AudioPulsesExactlyWhenSoundTimerEnds :
    ({ base 0x6000 with st := 1 }.status = .running ∧
      ∃ t, step { base 0x6000 with st := 1 } = .next t ∧ t.status = .running) ∧
    (base 0x00EE).status = .running ∧ ∃ t, step (base 0x00EE) = .next t ∧ t.status ≠ .running :=
  ⟨⟨by decide, of_check (by decide)⟩, by decide, of_check (by decide)⟩

theorem witness_TimerUnitTicks : (base 0x6000).status = .running ∧
    ∃ t, step (base 0x6000) = .next t ∧ t.status = .running :=
  ⟨by decide, of_check (by decide)⟩

theorem witness_UnrecognisedOpcodeIsSteppedOver :
    (lastFetch 0x0000).status = .running ∧ (lastFetch 0x0000).pc.toNat ≤ 0x0FFE ∧
    decodeWord (opcodeAt (lastFetch 0x0000)) = none := by decide

theorem witness_FaultedCoreStaysFrozen :
    { base 0 with status := .faulted (.stackUnderflow 0x0200) }.status = .faulted (.stackUnderflow 0x0200) := by decide

theorem witness_FatalFaultsArePrecise : (base 0x00EE).status = .running ∧
    ∃ t, step (base 0x00EE) = .next t ∧ t.status = .faulted (.stackUnderflow 0x0200) :=
  ⟨by decide, of_check (by decide)⟩

/-- FatalFaultsHaveExactlyTheListedCauses: each fault just beyond its bound. -/
theorem witness_FatalFaultsHaveExactlyTheListedCauses :
    after { base 0 with pc := 0x0FFF } (·.status) = some (.faulted (.fetchOutOfRange 0x0FFF)) ∧
    after { base 0x2300 with sp := 16 } (·.status) = some (.faulted (.stackOverflow 0x0200)) ∧
    after (base 0x00EE) (·.status) = some (.faulted (.stackUnderflow 0x0200)) ∧
    after (withI 0xF133 0x0FFE []) (·.status) = some (.faulted (.memoryOutOfRange 0x1000 .write)) ∧
    after (withI 0xFF55 0x0FF1 []) (·.status) = some (.faulted (.memoryOutOfRange 0x1000 .write)) ∧
    after (withI 0xF165 0x0FFF []) (·.status) = some (.faulted (.memoryOutOfRange 0x1000 .read)) ∧
    after (withI 0xD012 0x0FFF []) (·.status) = some (.faulted (.memoryOutOfRange 0x1000 .read)) ∧
    after (withV 0xE59E [(5, 0x10)]) (·.status) = some (.faulted (.keyIndexOutOfRange 0x10 0x0200)) ∧
    after (withV 0xE5A1 [(5, 0x10)]) (·.status) = some (.faulted (.keyIndexOutOfRange 0x10 0x0200)) := by decide

/-- LoaderCopiesOrFails: the longest image that fits and the shortest that does not. -/
theorem witness_LoaderCopiesOrFails :
    3584 < (List.replicate 3585 (0xAA : Byte)).length ∧ (List.replicate 3584 (0xAA : Byte)).length ≤ 3584 := by
  rw [List.length_replicate, List.length_replicate]; decide

theorem witness_CanonicalMemoryIsDeterminedByReads :
    Memory.wf [(0x200, 0x6A), (0xFFF, 0x05)] = true := by decide

/-- EveryStepKeepsTheInvariant: a state inside a call, at the bound of pc, that meets the invariant and steps. -/
theorem witness_EveryStepKeepsTheInvariant :
    Inv { lastFetch 0x00EE with sp := 1, stack := (Vector.replicate 16 0).set 0 0x0FFE } ∧
    ∃ t, step { lastFetch 0x00EE with sp := 1, stack := (Vector.replicate 16 0).set 0 0x0FFE } = .next t ∧
      t.pc = 0x1000 :=
  ⟨⟨by decide, by decide, by decide, trivial⟩, of_check (by decide)⟩

theorem witness_RegistersChangeOnlyAtDestinations :
    (∃ t, exec (.addReg 1 2) (withV 0 [(1, 0xC8), (2, 0x64)]) = .next t ∧ t.v[(1 : Reg)] = 0x2C) ∧
    mayWrite (.addReg 1 2) 0 = false ∧ mayWrite (.addReg 1 2) 2 = false ∧ mayWrite (.ldVxMem 14) 15 = false :=
  ⟨of_check (by decide), by decide⟩

/-- SpecialStateChangesOnlyByItsInstructions: each kind of state does change. -/
theorem witness_SpecialStateChangesOnlyByItsInstructions :
    (∃ t, exec (.ldDtVx 1) (withV 0 [(1, 7)]) = .next t ∧ t.dt ≠ 0) ∧
    (∃ t, exec (.ldStVx 1) (withV 0 [(1, 7)]) = .next t ∧ t.st ≠ 0) ∧
    (∃ t, exec (.call 0x300) (base 0) = .next t ∧ t.sp ≠ 0 ∧ t.stack ≠ Vector.replicate 16 0) ∧
    (∃ t, exec (.addI 1) (withV 0 [(1, 7)]) = .next t ∧ t.i ≠ 0) ∧
    (∃ t, exec (.ldB 1) (withI 0 0x300 [(1, 7)]) = .next t ∧ t.mem ≠ (withI 0 0x300 [(1, 7)]).mem) ∧
    (∃ t, exec .cls { base 0 with fb := Vector.replicate 32 1 } = .next t ∧ t.fb ≠ Vector.replicate 32 1) ∧
    (∃ t, exec (.rnd 1 0xFF) { base 0 with randomInputs := [9] } = .next t ∧ t.draws ≠ 0 ∧ t.randomInputs ≠ [9]) :=
  ⟨of_check (by decide), of_check (by decide), of_check (by decide), of_check (by decide), of_check (by decide),
    of_check (by decide), of_check (by decide)⟩

/-- PcAdvancesByTwoUnlessTransferring: an instruction that goes on, one that skips, one that waits and one that faults. -/
theorem witness_PcAdvancesByTwoUnlessTransferring :
    (base 0).status = .running ∧
    (∃ t, exec (.ldImm 1 2) (base 0) = .next t ∧ t.status = .running) ∧
    (∃ t, exec (.seImm 1 0) (base 0) = .next t ∧ t.status = .running ∧ t.pc = 0x0204) ∧
    (∃ t, exec (.ldVxK 1) (base 0) = .next t ∧ t.status = .running ∧ t.pc = 0x0200) ∧
    (∃ t, exec .ret (base 0) = .next t ∧ t.status ≠ .running) :=
  ⟨by decide, of_check (by decide), of_check (by decide), of_check (by decide), of_check (by decide)⟩

theorem witness_KeysReachOnlyKeyInstructions :
    ∀ x, Instr.drw 1 2 3 ≠ .skp x ∧ Instr.drw 1 2 3 ≠ .sknp x ∧ Instr.drw 1 2 3 ≠ .ldVxK x :=
  fun _ => ⟨nofun, nofun, nofun⟩

theorem witness_RandomReachesOnlyRnd : ∀ x kk, Instr.ldImm 1 2 ≠ .rnd x kk := nofun

/-- CallPushesItsOwnAddress and ReturnContinuesAfterTheCall, at the last free entry. -/
theorem witness_CallPushesItsOwnAddress : { base 0 with sp := 15 }.sp.val < 16 := by decide

theorem witness_ReturnContinuesAfterTheCall : { base 0 with sp := 15 }.sp.val < 16 ∧
    ∃ t, exec (.call 0x300) { base 0 with sp := 15 } = .next t ∧ t.sp = 16 :=
  ⟨by decide, of_check (by decide)⟩

/-- ReturnPopsAndAddsTwo, at both ends of the stack. -/
theorem witness_ReturnPopsAndAddsTwo :
    { base 0 with sp := 1 }.sp.val = (0 : Fin 16).val + 1 ∧
    { base 0 with sp := 16 }.sp.val = (15 : Fin 16).val + 1 := by decide

theorem witness_StackFaultsOnFullCallAndEmptyReturn :
    { base 0 with sp := 16 }.sp.val = 16 ∧ (base 0).sp.val = 0 := by decide

/-- The words of the obligations that state a pattern: the lowest and the highest of each. -/
theorem witness_JumpGoesToItsAddress :
    (0x1000 : Word) &&& 0xF000 = 0x1000 ∧ (0x1FFF : Word) &&& 0xF000 = 0x1000 := by decide

theorem witness_ImmediateSkipsCompareAndSkip :
    (0x3FFF : Word) &&& 0xF000 = 0x3000 ∧ (0x4000 : Word) &&& 0xF000 = 0x4000 := by decide

theorem witness_LoadImmediateSetsVx :
    (0x6000 : Word) &&& 0xF000 = 0x6000 ∧ (0x6FFF : Word) &&& 0xF000 = 0x6000 := by decide

theorem witness_LoadIndexSetsI :
    (0xA000 : Word) &&& 0xF000 = 0xA000 ∧ (0xAFFF : Word) &&& 0xF000 = 0xA000 := by decide

/-- A destination that is not VF. -/
theorem witness_AddRegisterSetsSumThenCarry : (14 : Reg) ≠ vF := by decide

theorem witness_SubtractsSetDifferenceThenNoBorrow : (14 : Reg) ≠ vF ∧ (0 : Reg) ≠ vF := by decide

/-- The register the implementation shifts, whichever it is, and a destination that is not VF. -/
theorem witness_ShiftsMoveOneBitIntoVf :
    (∃ z : Reg, z = (match Config.shiftSource with | .vx => 1 | .vy => 2)) ∧ (1 : Reg) ≠ vF :=
  ⟨⟨_, rfl⟩, by decide⟩

/-- RandomMasksOneDraw: a queued byte, and none. -/
theorem witness_RandomMasksOneDraw :
    { base 0 with randomInputs := [0xB7] }.randomInputs = 0xB7 :: [] ∧ (base 0).randomInputs = [] := by decide

theorem witness_BcdStoresThreeDigits : (withI 0 0x0FFD []).i.toNat + 2 ≤ 0x0FFF := by decide

/-- BlockStoreWritesV0ToVx and BlockLoadReadsV0ToVx: all sixteen registers, up to the last byte. -/
theorem witness_BlockStoreWritesV0ToVx : (withI 0 0x0FF0 []).i.toNat + (15 : Reg).val ≤ 0x0FFF := by decide

theorem witness_BlockLoadReadsV0ToVx : (withI 0 0x0FFF []).i.toNat + (0 : Reg).val ≤ 0x0FFF ∧
    (0 : Reg) ≤ 0 ∧ (0 : Reg) < 1 := by decide

/-- OutOfRangeAccessesFault: one byte too far for each access. -/
theorem witness_OutOfRangeAccessesFault :
    0x0FFF < (withI 0 0x0FFE []).i.toNat + 2 ∧ 0x0FFF < (withI 0 0x0FF1 []).i.toNat + (15 : Reg).val ∧
    0x0FFF < (withI 0 0x1000 []).i.toNat + (0 : Reg).val ∧
    0 < 1 ∧ 0x0FFF < (withI 0 0x1000 []).i.toNat + 1 - 1 := by decide

theorem witness_BlockStoreThenLoadRestores : (withI 0 0x0FFC []).i.toNat + (3 : Reg).val ≤ 0x0FFF ∧
    ∃ t, exec (.ldMemVx 3) (withI 0 0x0FFC [(0, 0x11), (3, 0x44)]) = .next t ∧
      { withI 0 0x0FFC [] with mem := t.mem }.mem = t.mem ∧ t.i = 0x1000 :=
  ⟨by decide, of_check (by decide)⟩

theorem witness_FetchSeesStoredBytes : (withI 0 0x0FFE []).i.toNat + (1 : Reg).val ≤ 0x0FFF ∧
    (∃ t, exec (.ldMemVx 1) (withI 0 0x0FFE [(0, 0x6A), (1, 0x77)]) = .next t ∧ t.status = .running) ∧
    (1 : Reg) ≤ 1 ∧ (1 : Reg).val = (0 : Reg).val + 1 ∧
    (0x0FFE : Word).toNat = (withI 0 0x0FFE []).i.toNat + (0 : Reg).val :=
  ⟨by decide, of_check (by decide), by decide⟩

/-- DrawInsideTheGridInvertsUnderOneBits: the bottom right corner with the last rows of memory, and zero rows. -/
theorem witness_DrawInsideTheGridInvertsUnderOneBits :
    ((withI 0 0x0FF1 [(0, 56), (1, 17)]).v[(0 : Reg)].toNat + 8 ≤ 64 ∧
      (withI 0 0x0FF1 [(0, 56), (1, 17)]).v[(1 : Reg)].toNat + 15 ≤ 32 ∧
      (withI 0 0x0FF1 [(0, 56), (1, 17)]).i.toNat + 15 - 1 ≤ 0x0FFF) ∧
    ((withI 0 0x2000 [(1, 32)]).v[(1 : Reg)].toNat + 0 ≤ 32 ∧ (0 : Nat) = 0) := by decide

theorem witness_DrawCompletesAnywhere : (15 = 0 ∨ (withI 0 0x0FF1 []).i.toNat + 15 - 1 ≤ 0x0FFF) ∧
    ((0 : Nat) = 0 ∨ (withI 0 0x2000 []).i.toNat + 0 - 1 ≤ 0x0FFF) := by decide

/-- DrawUnderWrapAndClip: both maps, the tallest sprite. -/
theorem witness_DrawUnderWrapAndClip :
    (wrapMap = wrapMap ∨ wrapMap = clipMap) ∧ (clipMap = wrapMap ∨ clipMap = clipMap) ∧ 15 ≤ 15 :=
  ⟨.inl rfl, .inr rfl, by decide⟩

/-- SecondDrawCollidesIffFirstTurnedOn: a sprite across the right edge (DP8w, DP8c), whose first draw turns pixels on. -/
theorem witness_SecondDrawCollidesIffFirstTurnedOn :
    1 ≤ 15 ∧
    (drawWith wrapMap 0 1 1 (withMem (withI 0 0x300 [(0, 60), (1, 5)]) 0x300 [0xFF])).fb[5] = 0xF00000000000000F ∧
    (drawWith clipMap 0 1 1 (withMem (withI 0 0x300 [(0, 60), (1, 5)]) 0x300 [0xFF])).fb[5] = 0xF000000000000000 := by
  decide

/-- DP1 and DP1b with the sprite F0 90 90 90 F0 at 0x300: the first draw, the second, and the collision. -/
theorem witness_DrawingTwiceRestoresTheDisplay :
    ∃ t, exec (.drw 0 1 5) (withMem (withI 0 0x300 [(0, 1), (1, 2)]) 0x300 [0xF0, 0x90, 0x90, 0x90, 0xF0]) = .next t ∧
      t.fb.toList.take 4 = [0, 0, 0x1E, 0x12] ∧
      check (exec (.drw 0 1 5)
        { withMem (withI 0 0x300 [(0, 1), (1, 2)]) 0x300 [0xF0, 0x90, 0x90, 0x90, 0xF0] with fb := t.fb })
        (fun u => u.v[vF] = 1) = true :=
  of_check (by decide)

/-- KeySkipsTestTheKeyInVx, at the last key, pressed and not. -/
theorem witness_KeySkipsTestTheKeyInVx :
    { withV 0 [(5, 15)] with keys := 0x8000 }.v[(5 : Reg)].toNat ≤ 15 ∧
    ({ withV 0 [(5, 15)] with keys := 0x8000 }.keys.getLsbD 15 = true) ∧
    (withV 0 [(5, 15)]).keys.getLsbD 15 = false := by decide

theorem witness_KeyIndexAboveFifteenFaults : 15 < (withV 0 [(5, 16)]).v[(5 : Reg)].toNat := by decide

/-- KeyWaitStoresAPressedKey: no key, and two keys (KY9). -/
theorem witness_KeyWaitStoresAPressedKey :
    (∀ k < 16, (base 0).keys.getLsbD k = false) ∧
    (∃ k, { base 0 with keys := 0x8100 }.keys.getLsbD k = true) :=
  ⟨by decide, 15, by decide⟩

theorem witness_WriteTimersFromVx : (withV 0 [(4, 1)]).status = .running := by decide

/-- FinishedProgramHoldsStill: a jump to itself at 0x0200 and at the last fetchable address. -/
theorem witness_FinishedProgramHoldsStill : Finished (base 0x1200) ∧ Finished (lastFetch 0x1FFE) :=
  ⟨⟨rfl, by unfold Fetchable; decide, by decide⟩, rfl, by unfold Fetchable; decide, by decide⟩

end Sys2Proof.Tests
end

section
/-! Jumps and immediate skips (spec/40_control.md): the decoder on their patterns, their arms of `exec`, and the frame
of an instruction that writes nothing but pc. -/

namespace Sys2Proof

/-! ### Opcodes selected by bits 15:12 -/

/-- A pattern that fixes bits 15:12 fixes the family. -/
theorem famOf_toNat_of_pattern {op pattern : Word} (h : op &&& 0xF000 = pattern) :
    (famOf op).toNat = pattern.toNat / 4096 := by
  have hmask := and_F000_toNat op
  rw [h] at hmask
  rw [famOf_toNat, hmask, Nat.mul_div_cancel _ (by decide)]

theorem decodeWord_pattern_1nnn {op : Word} (h : op &&& 0xF000 = 0x1000) :
    decodeWord op = some (.jp (nnnOf op)) := by
  simp [decodeWord, famOf_toNat_of_pattern h]

theorem decodeWord_pattern_3xkk {op : Word} (h : op &&& 0xF000 = 0x3000) :
    decodeWord op = some (.seImm (xOf op) (kkOf op)) := by
  simp [decodeWord, famOf_toNat_of_pattern h]

theorem decodeWord_pattern_4xkk {op : Word} (h : op &&& 0xF000 = 0x4000) :
    decodeWord op = some (.sneImm (xOf op) (kkOf op)) := by
  simp [decodeWord, famOf_toNat_of_pattern h]

end Sys2Proof

namespace Sys2Proof.Machine

/-! ### Instructions that write nothing but pc -/

theorem onlyPc_setPc (s : State) (w : Word) : OnlyPc s (s.setPc w) := ⟨rfl, fun _ => rfl⟩

theorem onlyPc_skipIf (s : State) (c : Bool) : OnlyPc s (s.skipIf c) := onlyPc_setPc s _

theorem exec_jp (nnn : Addr12) (s : State) : exec (.jp nnn) s = .next (s.setPc (zextAddr nnn)) := rfl

theorem exec_seImm (x : Reg) (kk : Byte) (s : State) :
    exec (.seImm x kk) s = .next (s.skipIf (s.v[x] == kk)) := rfl

theorem exec_sneImm (x : Reg) (kk : Byte) (s : State) :
    exec (.sneImm x kk) s = .next (s.skipIf (s.v[x] != kk)) := rfl

/-! ### The statements -/

/-- Settles O25: the pattern fixes the family, whose one instruction sets pc to the zero-extended address. -/
theorem jumpGoesToItsAddress : Obligations.JumpGoesToItsAddress := by
  refine ⟨fun op h => ?decoding, fun nnn s => ?effect⟩
  case decoding => exact ⟨nnnOf op, nnnOf_toNat op, decodeWord_pattern_1nnn h⟩
  case effect => exact ⟨_, exec_jp nnn s, zextAddr_toNat nnn, onlyPc_setPc s _⟩

/-- Settles O31: each pattern fixes the family, whose one instruction is a `skipIf` on the comparison of Vx with kk. -/
theorem immediateSkipsCompareAndSkip : Obligations.ImmediateSkipsCompareAndSkip := by
  refine ⟨fun op h => ?decode3, fun op h => ?decode4, fun x kk s => ?skipEqual, fun x kk s => ?skipUnequal⟩
  case decode3 => exact ⟨xOf op, kkOf op, xOf_val op, kkOf_toNat op, decodeWord_pattern_3xkk h⟩
  case decode4 => exact ⟨xOf op, kkOf op, xOf_val op, kkOf_toNat op, decodeWord_pattern_4xkk h⟩
  case skipEqual => exact ⟨_, exec_seImm x kk s, by simp, onlyPc_skipIf s _⟩
  case skipUnequal => exact ⟨_, exec_sneImm x kk s, by by_cases h : s.v[x] = kk <;> simp [h], onlyPc_skipIf s _⟩

end Sys2Proof.Machine
end

section
/-! Load-immediate (spec/41_alu.md): the decoder on its pattern, its arm of `exec`, and the frame of an instruction that
writes one general register and advances pc. -/

namespace Sys2Proof

theorem decodeWord_pattern_6xkk {op : Word} (h : op &&& 0xF000 = 0x6000) :
    decodeWord op = some (.ldImm (xOf op) (kkOf op)) := by
  simp [decodeWord, famOf_toNat_of_pattern h]

end Sys2Proof

namespace Sys2Proof.Machine

/-! ### Instructions that write one general register and advance -/

theorem setV_advance_v_same (x : Reg) (w : Byte) (s : State) : (s.setV x w).advance.v[x] = w :=
  (getElem_set_reg s.v x x w).trans (if_pos rfl)

theorem regsExcept_setV_advance (x : Reg) (w : Byte) (s : State) : RegsExcept [x] s (s.setV x w).advance := by
  intro r hr
  have hne : r ≠ x := mt List.mem_singleton.mpr hr
  exact (getElem_set_reg s.v x r w).trans (if_neg hne)

theorem onlyRegsPc_setV_advance (x : Reg) (w : Byte) (s : State) : OnlyRegsPc s (s.setV x w).advance :=
  ⟨rfl, fun _ => rfl⟩

theorem exec_ldImm (x : Reg) (kk : Byte) (s : State) : exec (.ldImm x kk) s = .next (s.setV x kk).advance := rfl

/-! ### The statement -/

/-- Settles O33: the pattern fixes the family, whose one instruction sets Vx to kk and advances pc (R80). -/
theorem loadImmediateSetsVx : Obligations.LoadImmediateSetsVx := by
  refine ⟨fun op h => ?decoding, fun x kk s => ?effect⟩
  case decoding => exact ⟨xOf op, kkOf op, xOf_val op, kkOf_toNat op, decodeWord_pattern_6xkk h⟩
  case effect =>
    exact ⟨_, exec_ldImm x kk s, setV_advance_v_same x kk s, regsExcept_setV_advance x kk s, State.advance_pc _,
      onlyRegsPc_setV_advance x kk s⟩

end Sys2Proof.Machine
end

section
/-! Load-index (spec/42_index_memory.md): the decoder on its pattern, its arm of `exec`, and the frame of an instruction
that writes I and advances pc. -/

namespace Sys2Proof

theorem decodeWord_pattern_Annn {op : Word} (h : op &&& 0xF000 = 0xA000) :
    decodeWord op = some (.ldI (nnnOf op)) := by
  simp [decodeWord, famOf_toNat_of_pattern h]

end Sys2Proof

namespace Sys2Proof.Machine

/-! ### Instructions that write I and advance -/

theorem onlyIndexPc_setI_advance (w : Word) (s : State) : OnlyIndexPc s (s.setI w).advance := ⟨rfl, fun _ => rfl⟩

theorem exec_ldI (nnn : Addr12) (s : State) : exec (.ldI nnn) s = .next (s.setI (zextAddr nnn)).advance := rfl

/-! ### The statement -/

/-- Settles O40: the pattern fixes the family, whose one instruction sets I to the zero-extended address and advances pc
(R100). -/
theorem loadIndexSetsI : Obligations.LoadIndexSetsI := by
  refine ⟨fun op h => ?decoding, fun nnn s => ?effect⟩
  case decoding => exact ⟨nnnOf op, nnnOf_toNat op, decodeWord_pattern_Annn h⟩
  case effect =>
    exact ⟨_, exec_ldI nnn s, zextAddr_toNat nnn, State.advance_pc _, onlyIndexPc_setI_advance _ s⟩

end Sys2Proof.Machine
end

section
/-! The timer unit (spec/60_exceptions.md R146): what one tick does to each timer, what `n` ticks do, and the inversion of
a step that ends running. -/

namespace Sys2Proof.Machine

/-! ### Ticks -/

@[simp] theorem tick_dt (s : State) : (tick s).dt = decTimer s.dt := rfl

@[simp] theorem tick_st (s : State) : (tick s).st = decTimer s.st := rfl

theorem tick_frame (s : State) : tick s = { s with dt := (tick s).dt, st := (tick s).st } := rfl

/-- The audio condition, read as a number. -/
theorem beep_eq_decide_toNat (s : State) : beep s = decide (s.st.toNat = 1) := by
  rw [Bool.eq_iff_iff, decide_eq_true_iff]
  exact beq_iff_eq.trans BitVec.toNat_inj.symm

theorem iterate_tick_timers (n : Nat) (s : State) :
    (tick^[n] s).dt.toNat = s.dt.toNat - n ∧ (tick^[n] s).st.toNat = s.st.toNat - n := by
  induction n generalizing s with
  | zero => exact ⟨rfl, rfl⟩
  | succ n ih =>
    obtain ⟨hdt, hst⟩ := ih (tick s)
    rw [tick_dt, decTimer_toNat] at hdt
    rw [tick_st, decTimer_toNat] at hst
    rw [Function.iterate_succ_apply]
    omega

/-! ### A cycle that ends running -/

theorem endCycle_timers (s : State) (h : s.status = .running) :
    (endCycle s).dt = decTimer s.dt ∧ (endCycle s).st = decTimer s.st := by
  rw [endCycle_eq s h]; exact ⟨rfl, rfl⟩

/-- A step that ends running fetched, executed its opcode without a fault, and ended its cycle (R145). -/
theorem step_to_running {s t : State} (hs : s.status = .running) (hstep : step s = .next t)
    (ht : t.status = .running) :
    ∃ u, execWord (opcodeAt s) s = .next u ∧ u.status = .running ∧ t = endCycle u := by
  obtain ⟨f, hf, -⟩ | ⟨-, -, rfl⟩ | ⟨-, -, u, hexec, rfl⟩ := step_cases hstep
  · cases hs.symm.trans hf
  · cases ht
  · exact ⟨u, hexec, (endCycle_status u).symm.trans ht, rfl⟩

/-! ### The statement -/

/-- Settles O8: a tick is one saturating decrement of each timer, `n` ticks follow by induction, and a cycle that ends
running is its execute step followed by `endCycle`, which holds the one tick. -/
theorem timerUnitTicks : Obligations.TimerUnitTicks := by
  refine ⟨fun s => ?oneTick, iterate_tick_timers, fun s t hs hstep ht => ?cycle⟩
  case oneTick =>
    exact ⟨beep_eq_decide_toNat s, decTimer_toNat s.dt, decTimer_toNat s.st, tick_frame s⟩
  case cycle =>
    obtain ⟨u, hexec, hu, rfl⟩ := step_to_running hs hstep ht
    obtain ⟨hdt, hst⟩ := endCycle_timers u hu
    exact ⟨u, hexec, by rw [hdt, decTimer_toNat], by rw [hst, decTimer_toNat]⟩

end Sys2Proof.Machine
end

section
/-! The encoding (spec/30_encoding.md): a word is its fields packed again, the masks on packed words, what the families
reject, and the round trips between `encode`, `decodeWord` and the instruction list. -/

namespace Sys2Proof

/-! ### Reading an encoding back -/

theorem decodeWord_encode (i : Instr) (h : i.wellFormed = true) : decodeWord (encode i) = some i :=
  Laws.RoundTrip.of_fields i h

/-- Settles O2: the word decodes back by its fields, and its two bytes are that word. -/
theorem decodeReadsBackEveryEncoding : Obligations.DecodeReadsBackEveryEncoding :=
  fun i rest h => decode_encodeBytes i rest (decodeWord_encode i h)

/-- Settles O1, by running the decoder on the fourteen words. -/
theorem decodeSampleWords : Obligations.DecodeSampleWords := by
  unfold Obligations.DecodeSampleWords; decide

/-! ### A word is its fields packed again -/

theorem packNnn_fields {op : Word} {f : BitVec 4} (hf : (famOf op).toNat = f.toNat) :
    packNnn f (nnnOf op) = op := by
  apply BitVec.eq_of_toNat_eq
  rw [packNnn_toNat, ← hf, famOf_toNat, nnnOf_toNat]; omega

theorem packXkk_fields {op : Word} {f : BitVec 4} (hf : (famOf op).toNat = f.toNat) :
    packXkk f (regBits (xOf op)) (kkOf op) = op := by
  apply BitVec.eq_of_toNat_eq
  rw [packXkk_toNat, ← hf, famOf_toNat, regBits_toNat, xOf_val, kkOf_toNat]; omega

/-- The same where the low byte is a known key. -/
theorem packXkk_key {op : Word} {f : BitVec 4} {kk : Byte} (hf : (famOf op).toNat = f.toNat)
    (hk : (kkOf op).toNat = kk.toNat) : packXkk f (regBits (xOf op)) kk = op :=
  BitVec.eq_of_toNat_eq hk ▸ packXkk_fields hf

theorem packXyn_fields {op : Word} {f n : BitVec 4} (hf : (famOf op).toNat = f.toNat)
    (hn : (nibble0 op).toNat = n.toNat) : packXyn f (regBits (xOf op)) (regBits (yOf op)) n = op := by
  apply BitVec.eq_of_toNat_eq
  rw [packXyn_toNat, ← hf, ← hn, famOf_toNat, regBits_toNat, regBits_toNat, xOf_val, yOf_val, nibble0_toNat]; omega

/-- Family 0 packed again without its ignored bits. -/
theorem packXkk_family0 {op : Word} {kk : Byte} (hf : (famOf op).toNat = 0) (hk : (kkOf op).toNat = kk.toNat) :
    packXkk 0 0 kk = op &&& 0xF0FF := by
  rw [famOf_toNat] at hf
  apply BitVec.eq_of_toNat_eq
  rw [packXkk_toNat, and_F0FF_toNat, ← hk, kkOf_toNat, hf]; simp

/-! ### The encoding of what a family decodes to -/

theorem encode_decodeFam0 {op : Word} {i : Instr} (hf : (famOf op).toNat = 0) (h : decodeFam0 op = some i) :
    i.wellFormed = true ∧ encode i = op &&& 0xF0FF := by
  unfold decodeFam0 at h
  split at h <;> cases h <;> rename_i hk <;> exact ⟨rfl, packXkk_family0 hf hk⟩

theorem encode_decodeFam8 {op : Word} {i : Instr} (hf : (famOf op).toNat = 8) (h : decodeFam8 op = some i) :
    i.wellFormed = true ∧ encode i = op := by
  unfold decodeFam8 at h
  split at h <;> cases h <;> rename_i hn <;> exact ⟨rfl, packXyn_fields hf hn⟩

theorem encode_decodeFamE {op : Word} {i : Instr} (hf : (famOf op).toNat = 0xE) (h : decodeFamE op = some i) :
    i.wellFormed = true ∧ encode i = op := by
  unfold decodeFamE at h
  split at h <;> cases h <;> rename_i hk <;> exact ⟨rfl, packXkk_key hf hk⟩

theorem encode_decodeFamF {op : Word} {i : Instr} (hf : (famOf op).toNat = 0xF) (h : decodeFamF op = some i) :
    i.wellFormed = true ∧ encode i = op := by
  unfold decodeFamF at h
  split at h <;> cases h <;> rename_i hk <;> exact ⟨rfl, packXkk_key hf hk⟩

/-- Family D, whose height is the low nibble. -/
theorem encode_drw_fields {op : Word} (hf : (famOf op).toNat = 0xD) :
    Instr.wellFormed (.drw (xOf op) (yOf op) (nOf op)) = true ∧
      encode (.drw (xOf op) (yOf op) (nOf op)) = op := by
  have hlt : nOf op < 16 := (nibble0 op).isLt
  refine ⟨decide_eq_true hlt, packXyn_fields hf ?_⟩
  rw [BitVec.toNat_ofNat]; exact (Nat.mod_eq_of_lt hlt).symm

theorem encode_decodeWord_family0 {op : Word} {i : Instr} (hf : (famOf op).toNat = 0) (h : decodeWord op = some i) :
    i.wellFormed = true ∧ encode i = op &&& 0xF0FF :=
  encode_decodeFam0 hf (by simpa [decodeWord, hf] using h)

/-- The other families; `h_1` to `h_16` are the families 0 to F, `h_17` the arm no opcode reaches. -/
theorem encode_decodeWord_other {op : Word} {i : Instr} (hf : (famOf op).toNat ≠ 0) (h : decodeWord op = some i) :
    i.wellFormed = true ∧ encode i = op := by
  unfold decodeWord at h
  split at h <;> rename_i hfam
  case h_1 => exact absurd hfam hf
  case h_2 | h_3 | h_11 | h_12 => cases h; exact ⟨rfl, packNnn_fields hfam⟩
  case h_4 | h_5 | h_7 | h_8 | h_13 => cases h; exact ⟨rfl, packXkk_fields hfam⟩
  case h_6 | h_10 =>
    split at h <;> cases h
    rename_i hn; exact ⟨rfl, packXyn_fields hfam (congrArg BitVec.toNat hn)⟩
  case h_9 => exact encode_decodeFam8 hfam h
  case h_14 => cases h; exact encode_drw_fields hfam
  case h_15 => exact encode_decodeFamE hfam h
  case h_16 => exact encode_decodeFamF hfam h
  case h_17 => cases h

/-- Settles O5: family 0 packs to the word without its ignored bits, every other family to the word itself. -/
theorem encodeReturnsTheRecognisedWord : Obligations.EncodeReturnsTheRecognisedWord := by
  intro op i h
  by_cases hlt : op.toNat < 0x1000
  · rw [if_pos hlt]
    exact encode_decodeWord_family0 (by rw [famOf_toNat]; omega) h
  · rw [if_neg hlt]
    exact encode_decodeWord_other (by rw [famOf_toNat]; omega) h

/-! ### The instruction list -/

theorem packNnn_and_F000 (f : BitVec 4) (nnn : Addr12) : packNnn f nnn &&& 0xF000 = packNnn f 0 := by
  apply BitVec.eq_of_toNat_eq; rw [and_F000_toNat, packNnn_toNat, packNnn_toNat]; simp; omega

theorem packXkk_and_F000 (f x : BitVec 4) (kk : Byte) : packXkk f x kk &&& 0xF000 = packXkk f 0 0 := by
  apply BitVec.eq_of_toNat_eq; rw [and_F000_toNat, packXkk_toNat, packXkk_toNat]; simp; omega

theorem packXyn_and_F000 (f x y n : BitVec 4) : packXyn f x y n &&& 0xF000 = packXyn f 0 0 0 := by
  apply BitVec.eq_of_toNat_eq; rw [and_F000_toNat, packXyn_toNat, packXyn_toNat]; simp; omega

theorem packXyn_and_F00F (f x y n : BitVec 4) : packXyn f x y n &&& 0xF00F = packXyn f 0 0 n := by
  apply BitVec.eq_of_toNat_eq; rw [and_F00F_toNat, packXyn_toNat, packXyn_toNat]; simp; omega

theorem packXkk_and_F0FF (f x : BitVec 4) (kk : Byte) : packXkk f x kk &&& 0xF0FF = packXkk f 0 kk := by
  apply BitVec.eq_of_toNat_eq; rw [and_F0FF_toNat, packXkk_toNat, packXkk_toNat]; simp; omega

/-- An encoding has the pattern of its row. -/
theorem encode_and_mask (i : Instr) : encode i &&& i.row.mask = i.row.pattern := by
  cases i with
  | jp | call | ldI | jpV0 => exact packNnn_and_F000 _ _
  | seImm | sneImm | ldImm | addImm | rnd => exact packXkk_and_F000 _ _ _
  | drw => exact packXyn_and_F000 _ _ _ _
  | seReg | sneReg | ldReg | or | and | xor | addReg | sub | shr | subn | shl => exact packXyn_and_F00F _ _ _ _
  | cls | ret | skp | sknp | ldVxDt | ldVxK | ldDtVx | ldStVx | addI | ldF | ldB | ldMemVx | ldVxMem =>
    exact packXkk_and_F0FF _ _ _

theorem row_mask (i : Instr) : i.row.mask = 0xF000 ∨ i.row.mask = 0xF00F ∨ i.row.mask = 0xF0FF := by
  cases i <;> simp [Instr.row]

/-- No row looks at the bits that family 0 ignores. -/
theorem and_F0FF_and_mask (op : Word) (i : Instr) : op &&& 0xF0FF &&& i.row.mask = op &&& i.row.mask := by
  have hmask : 0xF0FF &&& i.row.mask = i.row.mask := by
    obtain h | h | h := row_mask i <;> rw [h] <;> decide
  rw [BitVec.and_assoc, hmask]

/-- A recognised opcode has the pattern of the row it decodes to. -/
theorem and_mask_of_decodeWord {op : Word} {j : Instr} (h : decodeWord op = some j) :
    op &&& j.row.mask = j.row.pattern := by
  obtain ⟨-, henc⟩ := encodeReturnsTheRecognisedWord op j h
  have hpattern := encode_and_mask j
  rw [henc] at hpattern
  split at hpattern
  · rwa [and_F0FF_and_mask] at hpattern
  · exact hpattern

theorem nibble0_eq_zero (op : Word) : nibble0 op = 0#4 ↔ (nibble0 op).toNat = 0 := BitVec.toNat_inj.symm

/-- A pattern under 0xF00F fixes the family and the low nibble. -/
theorem fields_of_and_F00F {op pattern : Word} (h : op &&& 0xF00F = pattern) :
    (famOf op).toNat = pattern.toNat / 4096 ∧ (nibble0 op).toNat = pattern.toNat % 16 := by
  have hmask := and_F00F_toNat op
  rw [h] at hmask
  rw [famOf_toNat, nibble0_toNat]; omega

/-- A pattern under 0xF0FF fixes the family and the low byte. -/
theorem fields_of_and_F0FF {op pattern : Word} (h : op &&& 0xF0FF = pattern) :
    (famOf op).toNat = pattern.toNat / 4096 ∧ (kkOf op).toNat = pattern.toNat % 256 := by
  have hmask := and_F0FF_toNat op
  rw [h] at hmask
  rw [famOf_toNat, kkOf_toNat]; omega

/-- An opcode with the pattern of a row decodes to an instruction of that row. -/
theorem decodeWord_of_and_mask {op : Word} {i : Instr} (h : op &&& i.row.mask = i.row.pattern) :
    ∃ j, decodeWord op = some j ∧ j.row = i.row := by
  cases i with
  | jp | call | seImm | sneImm | ldImm | addImm | ldI | jpV0 | rnd | drw =>
    have hf := famOf_toNat_of_pattern h
    simp [Instr.row] at hf
    simp [decodeWord, hf, Instr.row]
  | seReg | sneReg | ldReg | or | and | xor | addReg | sub | shr | subn | shl =>
    obtain ⟨hf, hn⟩ := fields_of_and_F00F h
    simp [Instr.row] at hf hn
    simp [decodeWord, decodeFam8, nibble0_eq_zero, hf, hn, Instr.row]
  | cls | ret | skp | sknp | ldVxDt | ldVxK | ldDtVx | ldStVx | addI | ldF | ldB | ldMemVx | ldVxMem =>
    obtain ⟨hf, hk⟩ := fields_of_and_F0FF h
    simp [Instr.row] at hf hk
    simp [decodeWord, decodeFam0, decodeFamE, decodeFamF, hf, hk, Instr.row]

/-- Settles O3: a matching opcode decodes within the row, and what an opcode decodes to has the opcode's pattern. -/
theorem decodeAgreesWithMatchAndMask : Obligations.DecodeAgreesWithMatchAndMask := by
  intro op i
  refine ⟨decodeWord_of_and_mask, ?_⟩
  rintro ⟨j, hj, hrow⟩
  exact hrow ▸ and_mask_of_decodeWord hj

/-! ### Unrecognised opcodes -/

theorem decodeFam0_eq_none (op : Word) :
    decodeFam0 op = none ↔ op.toNat % 0x100 ≠ 0xE0 ∧ op.toNat % 0x100 ≠ 0xEE := by
  rw [← kkOf_toNat]; unfold decodeFam0; split <;> simp_all

theorem decodeFam8_eq_none (op : Word) :
    decodeFam8 op = none ↔ op.toNat % 0x10 ∈ [8, 9, 0xA, 0xB, 0xC, 0xD, 0xF] := by
  have hlt := (nibble0 op).isLt
  rw [← nibble0_toNat]; unfold decodeFam8; split <;> simp_all; omega

theorem decodeFamE_eq_none (op : Word) :
    decodeFamE op = none ↔ op.toNat % 0x100 ≠ 0x9E ∧ op.toNat % 0x100 ≠ 0xA1 := by
  rw [← kkOf_toNat]; unfold decodeFamE; split <;> simp_all

theorem decodeFamF_eq_none (op : Word) :
    decodeFamF op = none ↔ op.toNat % 0x100 ∉ [0x07, 0x0A, 0x15, 0x18, 0x1E, 0x29, 0x33, 0x55, 0x65] := by
  rw [← kkOf_toNat]; unfold decodeFamF; split <;> simp_all

/-- Settles O4: each of the sixteen families (`h_1` to `h_16`) rejects what its line of the table lists, or nothing. -/
theorem unrecognisedAreExactlyTheTable : Obligations.UnrecognisedAreExactlyTheTable := by
  intro op
  have hlt := (famOf op).isLt
  rw [← famOf_toNat]
  unfold decodeWord
  split <;> rename_i hf
  case h_1 => simp [hf, decodeFam0_eq_none]
  case h_6 | h_10 => simp [hf, nibble0_eq_zero, nibble0_toNat]
  case h_9 => simp [hf, decodeFam8_eq_none]
  case h_15 => simp [hf, decodeFamE_eq_none]
  case h_16 => simp [hf, decodeFamF_eq_none]
  case h_17 => simp only [imp_false] at *; omega
  all_goals simp [hf]

end Sys2Proof
end

section
/-! Every instruction as a fault condition and an effect (spec/60_exceptions.md R130, R131): `exec` raises the fault
where there is one and otherwise answers the effect. What all instructions leave alone follows by cases on the
effect. -/

namespace Sys2Proof.Machine

/-! ### The two halves of an instruction -/

/-- The fatal fault an instruction raises in a state, if it raises one. -/
def faultOf : Instr → State → Option FatalFault
  | .ret, s => if s.sp.val = 0 then some (.stackUnderflow s.pc) else none
  | .call _, s => if s.sp.val = 16 then some (.stackOverflow s.pc) else none
  | .skp x, s | .sknp x, s =>
    if 15 < s.v[x].toNat then some (.keyIndexOutOfRange s.v[x] s.pc) else none
  | .ldB _, s => (rangeViolation s.i.toNat 3).map (.memoryOutOfRange · .write)
  | .ldMemVx x, s => (rangeViolation s.i.toNat (x.val + 1)).map (.memoryOutOfRange · .write)
  | .ldVxMem x, s => (rangeViolation s.i.toNat (x.val + 1)).map (.memoryOutOfRange · .read)
  | .drw _ _ n, s => (rangeViolation s.i.toNat n).map (.memoryOutOfRange · .read)
  | _, _ => none

/-- The state an instruction leaves where it raises no fault. -/
def effectOf : Instr → State → State
  | .cls, s => (s.setFb Display.clear).advance
  | .ret, s => { s with sp := ⟨s.sp.val - 1, by omega⟩, pc := s.stack[s.sp.val - 1] + 2 }
  | .jp nnn, s => s.setPc (zextAddr nnn)
  | .call nnn, s => { s with
      stack := s.stack.setIfInBounds s.sp.val s.pc, sp := ⟨min (s.sp.val + 1) 16, by omega⟩, pc := zextAddr nnn }
  | .seImm x kk, s => s.skipIf (s.v[x] == kk)
  | .sneImm x kk, s => s.skipIf (s.v[x] != kk)
  | .seReg x y, s => s.skipIf (s.v[x] == s.v[y])
  | .ldImm x kk, s => (s.setV x kk).advance
  | .addImm x kk, s => (s.setV x (s.v[x] + kk)).advance
  | .ldReg x y, s => (s.setV x s.v[y]).advance
  | .or x y, s => (s.setV x (s.v[x] ||| s.v[y])).advance
  | .and x y, s => (s.setV x (s.v[x] &&& s.v[y])).advance
  | .xor x y, s => (s.setV x (s.v[x] ^^^ s.v[y])).advance
  | .addReg x y, s => (s.setResultThenFlag x (s.v[x] + s.v[y]) (addCarry s.v[x] s.v[y])).advance
  | .sub x y, s => (s.setResultThenFlag x (s.v[x] - s.v[y]) (noBorrow s.v[x] s.v[y])).advance
  | .shr x y, s => shrWith Config.shiftSource x y s
  | .subn x y, s => (s.setResultThenFlag x (s.v[y] - s.v[x]) (noBorrow s.v[y] s.v[x])).advance
  | .shl x y, s => shlWith Config.shiftSource x y s
  | .sneReg x y, s => s.skipIf (s.v[x] != s.v[y])
  | .ldI nnn, s => (s.setI (zextAddr nnn)).advance
  | .jpV0 nnn, s => s.setPc (zextAddr nnn + zextByte s.v[(0 : Reg)])
  | .rnd x kk, s => (s.drawRandom.2.setV x (s.drawRandom.1 &&& kk)).advance
  | .drw x y n, s => drawWith displayMap x y n s
  | .skp x, s => s.skipIf (s.keys.getLsbD s.v[x].toNat)
  | .sknp x, s => s.skipIf (!s.keys.getLsbD s.v[x].toNat)
  | .ldVxDt x, s => (s.setV x s.dt).advance
  | .ldVxK x, s => s.storeKey x (keyPickWith Config.keyChoice s.keys)
  | .ldDtVx x, s => (s.setDt s.v[x]).advance
  | .ldStVx x, s => (s.setSt s.v[x]).advance
  | .addI x, s => ((s.setI (s.i + zextByte s.v[x])).setV vF (flagByte (indexOverflow s.i s.v[x]))).advance
  | .ldF x, s => (s.setI (glyphAddr s.v[x])).advance
  | .ldB x, s => (s.setMem (s.mem.writeBytes s.i.toNat (bcdDigits s.v[x]))).advance
  | .ldMemVx x, s => ((s.setMem (s.mem.writeBytes s.i.toNat (s.blockRegs x))).advanceI x).advance
  | .ldVxMem x, s => ((s.loadBlock x).advanceI x).advance

theorem guardRange_eq_elim (first count : Nat) (acc : Access) (s after : State) :
    guardRange first count acc s after =
      ((rangeViolation first count).map (.memoryOutOfRange · acc)).elim (.next after) (raise · s) := by
  unfold guardRange; cases rangeViolation first count <;> rfl

/-- Ex9E with a key index. -/
theorem exec_skp_key {x : Reg} {s : State} (h : s.v[x].toNat ≤ 15) :
    exec (.skp x) s = .next (s.skipIf (s.keys.getLsbD s.v[x].toNat)) := by
  simp only [exec, execSkp, State.getV_eq, keyIndex_some _ h]; rfl

theorem exec_skp_above {x : Reg} {s : State} (h : 15 < s.v[x].toNat) :
    exec (.skp x) s = .next { s with status := .faulted (.keyIndexOutOfRange s.v[x] s.pc) } := by
  simp only [exec, execSkp, State.getV_eq, (keyIndex_none _).2 h, raise_eq]

/-- ExA1 with a key index. -/
theorem exec_sknp_key {x : Reg} {s : State} (h : s.v[x].toNat ≤ 15) :
    exec (.sknp x) s = .next (s.skipIf (!s.keys.getLsbD s.v[x].toNat)) := by
  simp only [exec, execSknp, State.getV_eq, keyIndex_some _ h]; rfl

theorem exec_sknp_above {x : Reg} {s : State} (h : 15 < s.v[x].toNat) :
    exec (.sknp x) s = .next { s with status := .faulted (.keyIndexOutOfRange s.v[x] s.pc) } := by
  simp only [exec, execSknp, State.getV_eq, (keyIndex_none _).2 h, raise_eq]

theorem effectOf_call_room {nnn : Addr12} {s : State} (h : s.sp.val < 16) :
    effectOf (.call nnn) s = { s with
      stack := s.stack.set s.sp.val s.pc, sp := ⟨s.sp.val + 1, by omega⟩, pc := zextAddr nnn } := by
  have hsp : min (s.sp.val + 1) 16 = s.sp.val + 1 := by omega
  have hstack : s.stack.setIfInBounds s.sp.val s.pc = s.stack.set s.sp.val s.pc := by
    simp [Vector.setIfInBounds, Array.setIfInBounds, Vector.set, h]
  simp only [effectOf, hsp, hstack]

/-- The model's `exec` is the fault where there is one, and else the effect. -/
theorem exec_eq_elim (i : Instr) (s : State) :
    exec i s = (faultOf i s).elim (.next (effectOf i s)) (raise · s) := by
  cases i with
  | ret =>
    by_cases h : s.sp.val = 0
    · rw [exec_ret_empty s h, faultOf, if_pos h]; rfl
    · rw [exec_ret_entry s (by omega), faultOf, if_neg h]; rfl
  | call nnn =>
    by_cases h : s.sp.val = 16
    · rw [exec_call_full nnn s h, faultOf, if_pos h]; rfl
    · have hroom : s.sp.val < 16 := by omega
      rw [exec_call_room nnn s hroom, faultOf, if_neg h, effectOf_call_room hroom]; rfl
  | skp x =>
    by_cases h : 15 < s.v[x].toNat
    · rw [exec_skp_above h, faultOf, if_pos h]; rfl
    · rw [exec_skp_key (by omega), faultOf, if_neg h]; rfl
  | sknp x =>
    by_cases h : 15 < s.v[x].toNat
    · rw [exec_sknp_above h, faultOf, if_pos h]; rfl
    · rw [exec_sknp_key (by omega), faultOf, if_neg h]; rfl
  | drw | ldB | ldMemVx | ldVxMem => exact guardRange_eq_elim _ _ _ _ _
  | _ => rfl

theorem exec_of_faultOf_none {i : Instr} {s : State} (h : faultOf i s = none) :
    exec i s = .next (effectOf i s) := by
  rw [exec_eq_elim, h]; rfl

theorem exec_of_faultOf_some {i : Instr} {s : State} {f : FatalFault} (h : faultOf i s = some f) :
    exec i s = .next { s with status := .faulted f } := by
  rw [exec_eq_elim, h]; rfl

/-- Everything an instruction that answers `t` can have done. -/
theorem exec_cases {i : Instr} {s t : State} (h : exec i s = .next t) :
    (∃ f, faultOf i s = some f ∧ t = { s with status := .faulted f }) ∨
    (faultOf i s = none ∧ t = effectOf i s) := by
  cases hf : faultOf i s with
  | some f =>
    rw [exec_of_faultOf_some hf] at h
    exact .inl ⟨f, rfl, by injection h with h; exact h.symm⟩
  | none =>
    rw [exec_of_faultOf_none hf] at h
    exact .inr ⟨rfl, by injection h with h; exact h.symm⟩

/-! ### The fault conditions, one by one -/

theorem faultOf_eq_fetchOutOfRange (i : Instr) (s : State) (p : Word) :
    faultOf i s ≠ some (.fetchOutOfRange p) := by
  cases i <;> simp [faultOf]

theorem faultOf_eq_stackOverflow (i : Instr) (s : State) (p : Word) :
    faultOf i s = some (.stackOverflow p) ↔ (∃ nnn, i = .call nnn) ∧ s.sp.val = 16 ∧ p = s.pc := by
  cases i <;> simp [faultOf, eq_comm]

theorem faultOf_eq_stackUnderflow (i : Instr) (s : State) (p : Word) :
    faultOf i s = some (.stackUnderflow p) ↔ i = .ret ∧ s.sp.val = 0 ∧ p = s.pc := by
  cases i <;> simp [faultOf, eq_comm]

theorem faultOf_eq_keyIndexOutOfRange (i : Instr) (s : State) (w : Byte) (p : Word) :
    faultOf i s = some (.keyIndexOutOfRange w p) ↔
      ∃ x, (i = .skp x ∨ i = .sknp x) ∧ w = s.v[x] ∧ 15 < w.toNat ∧ p = s.pc := by
  cases i with
  | skp x | sknp x =>
    simp only [faultOf, Option.ite_none_right_eq_some, Option.some.injEq, FatalFault.keyIndexOutOfRange.injEq]
    constructor
    · rintro ⟨h, rfl, rfl⟩; exact ⟨x, by simp, rfl, h, rfl⟩
    · rintro ⟨_, hx, rfl, h, rfl⟩
      simp only [Instr.skp.injEq, Instr.sknp.injEq, reduceCtorEq, or_false, false_or] at hx
      subst hx; exact ⟨h, rfl, rfl⟩
  | _ => simp [faultOf]

/-- Where a range check stands for a fault: the lowest offending address (R107). -/
theorem map_rangeViolation_eq_some (first count a : Nat) (acc acc' : Access) :
    (rangeViolation first count).map (FatalFault.memoryOutOfRange · acc) = some (.memoryOutOfRange a acc') ↔
      acc = acc' ∧ 0 < count ∧ 0x1000 < first + count ∧ a = max first 0x1000 := by
  simp only [Option.map_eq_some_iff, FatalFault.memoryOutOfRange.injEq, rangeViolation_some]
  constructor
  · rintro ⟨_, ⟨h0, h, rfl⟩, rfl, hacc⟩; exact ⟨hacc, h0, h, rfl⟩
  · rintro ⟨hacc, h0, h, rfl⟩; exact ⟨_, ⟨h0, h, rfl⟩, rfl, hacc⟩

theorem faultOf_eq_memoryOutOfRange_write (i : Instr) (s : State) (a : Nat) :
    faultOf i s = some (.memoryOutOfRange a .write) ↔
      a = max s.i.toNat 0x1000 ∧ ∃ x, (i = .ldB x ∧ 0x0FFF < s.i.toNat + 2) ∨
        (i = .ldMemVx x ∧ 0x0FFF < s.i.toNat + x.val) := by
  cases i with
  | ldB x | ldMemVx x => rw [faultOf, map_rangeViolation_eq_some]; simp; omega
  | ldVxMem | drw => simp [faultOf]
  | _ => simp [faultOf]

theorem faultOf_eq_memoryOutOfRange_read (i : Instr) (s : State) (a : Nat) :
    faultOf i s = some (.memoryOutOfRange a .read) ↔
      a = max s.i.toNat 0x1000 ∧ ((∃ x, i = .ldVxMem x ∧ 0x0FFF < s.i.toNat + x.val) ∨
        ∃ x y n, i = .drw x y n ∧ 0 < n ∧ 0x0FFF < s.i.toNat + n - 1) := by
  cases i with
  | ldVxMem x | drw x y n => rw [faultOf, map_rangeViolation_eq_some]; simp; omega
  | ldB | ldMemVx => simp [faultOf]
  | _ => simp [faultOf]

/-! ### What all instructions leave alone -/

theorem skipIf_pc_cases (s : State) (c : Bool) :
    (s.skipIf c).pc = s.pc + 2 ∨ (s.skipIf c).pc = s.pc + 4 := by
  cases c
  · exact .inl rfl
  · exact .inr rfl

theorem storeKey_pc_cases (s : State) (x : Reg) (k : Option (Fin 16)) :
    (s.storeKey x k).pc = s.pc ∨ (s.storeKey x k).pc = s.pc + 2 := by
  cases k
  · exact .inl rfl
  · exact .inr rfl

theorem effectOf_status (i : Instr) (s : State) : (effectOf i s).status = s.status := by
  cases i with
  | ldVxK x => rw [effectOf]; cases keyPickWith Config.keyChoice s.keys <;> rfl
  | rnd x kk => simp [effectOf, State.drawRandom_state]
  | _ => rfl

/-- Settles O20: a fault changes no register, and each effect writes its destinations by `set`. -/
theorem registersChangeOnlyAtDestinations : Obligations.RegistersChangeOnlyAtDestinations := by
  intro i s t r h hr
  obtain ⟨f, -, rfl⟩ | ⟨-, rfl⟩ := exec_cases h
  case inl => rfl
  case inr =>
    cases i with
    | ldImm x | addImm x | ldReg x | or x | and x | xor x | ldVxDt x =>
      have hne : r ≠ x := by simpa [mayWrite] using hr
      exact (getElem_set_reg s.v x r _).trans (if_neg hne)
    | rnd x =>
      have hne : r ≠ x := by simpa [mayWrite] using hr
      exact (getElem_set_reg s.drawRandom.2.v x r _).trans (by rw [if_neg hne, s.drawRandom_state])
    | ldVxK x =>
      have hne : r ≠ x := by simpa [mayWrite] using hr
      cases hk : keyPickWith Config.keyChoice s.keys with
      | none => rw [effectOf, hk]; rfl
      | some k => rw [effectOf, hk]; exact (getElem_set_reg s.v x r _).trans (if_neg hne)
    | addReg x | sub x | shr x | subn x | shl x =>
      have hne : r ≠ x ∧ r ≠ vF := by simpa [mayWrite] using hr
      exact (getElem_result_then_flag s.v x r _ _).trans (by rw [if_neg hne.2, if_neg hne.1])
    | addI | drw =>
      have hne : r ≠ vF := by simpa [mayWrite] using hr
      exact (getElem_set_reg s.v vF r _).trans (if_neg hne)
    | ldVxMem x =>
      have hlt : ¬ r ≤ x := by simpa [mayWrite] using hr
      exact (s.getElem_loadBlock x r).trans (if_neg hlt)
    | _ => rfl

/-- Settles O21: a fault changes STATUS only, and each effect changes the fields its updates name. -/
theorem specialStateChangesOnlyByItsInstructions : Obligations.SpecialStateChangesOnlyByItsInstructions := by
  intro i s t h
  obtain ⟨f, -, rfl⟩ | ⟨-, rfl⟩ := exec_cases h
  case inl => simp
  case inr =>
    cases i with
    | ldVxK x => cases hk : keyPickWith Config.keyChoice s.keys <;> simp [effectOf, hk, State.storeKey]
    | rnd x kk => simp [effectOf, State.drawRandom_state]
    | _ => simp [effectOf, shrWith, shlWith, drawWith, State.advanceI]

/-- Settles O22: a fault keeps pc, and each effect ends in `advance`, `skipIf` or its own target. -/
theorem pcAdvancesByTwoUnlessTransferring : Obligations.PcAdvancesByTwoUnlessTransferring := by
  intro i s t hs h
  obtain ⟨f, -, rfl⟩ | ⟨-, rfl⟩ := exec_cases h
  case inl => simp
  case inr =>
    refine ⟨fun hne => absurd ?_ hne, fun _ => ?_⟩
    · rw [effectOf_status, hs]
    cases i with
    | ret | jp | call | jpV0 => trivial
    | seImm | sneImm | seReg | sneReg | skp | sknp => exact skipIf_pc_cases s _
    | ldVxK x => exact storeKey_pc_cases s x _
    | rnd => simp [effectOf, State.drawRandom_state]
    | _ => rfl

/-! ### What instructions read -/

theorem State.loadRegs_congr {s t : State} (hmem : t.mem = s.mem) (hi : t.i = s.i) (rs : List Reg)
    (v : Vector Byte 16) : t.loadRegs rs v = s.loadRegs rs v := by
  induction rs generalizing v with
  | nil => rfl
  | cons r rs ih => rw [State.loadRegs, State.loadRegs, ih, State.blockByte, State.blockByte, hmem, hi]

/-- A block load reads memory, I, the registers and pc. -/
theorem effectOf_ldVxMem_congr {s t : State} (x : Reg) (hmem : t.mem = s.mem) (hi : t.i = s.i) (hv : t.v = s.v)
    (hpc : t.pc = s.pc) : effectOf (.ldVxMem x) t = { t with
      v := (effectOf (.ldVxMem x) s).v, i := (effectOf (.ldVxMem x) s).i, pc := (effectOf (.ldVxMem x) s).pc } := by
  simp [effectOf, State.advance, State.advanceI, State.setI, State.setPc, State.loadBlock,
    State.loadRegs_congr hmem hi, hv, hi, hpc]

/-- A change of state that no fault condition and no effect sees commutes with the instruction. -/
theorem exec_commutes {i : Instr} {s : State} {change : State → State}
    (hfault : faultOf i (change s) = faultOf i s) (heffect : effectOf i (change s) = change (effectOf i s))
    (hraise : ∀ f, raise f (change s) = onNext change (raise f s)) :
    exec i (change s) = onNext change (exec i s) := by
  rw [exec_eq_elim, exec_eq_elim, hfault, heffect]
  cases faultOf i s with
  | none => rfl
  | some f => exact hraise f

/-- Settles O23: but for the three key instructions neither the fault condition nor the effect reads the keys. -/
theorem keysReachOnlyKeyInstructions : Obligations.KeysReachOnlyKeyInstructions := by
  intro i s keys hi
  refine exec_commutes (change := fun t => { t with keys := keys }) ?fault ?effect fun _ => rfl
  case fault => cases i <;> rfl
  case effect =>
    cases i with
    | skp x => exact absurd rfl (hi x).1
    | sknp x => exact absurd rfl (hi x).2.1
    | ldVxK x => exact absurd rfl (hi x).2.2
    | rnd x kk => simp only [effectOf, State.drawRandom]; cases s.randomInputs <;> rfl
    | ldVxMem x => exact effectOf_ldVxMem_congr x rfl rfl rfl rfl
    | _ => rfl

/-- Settles O24: but for Cxkk neither the fault condition nor the effect reads the random port. -/
theorem randomReachesOnlyRnd : Obligations.RandomReachesOnlyRnd := by
  intro i s rs n hi
  refine exec_commutes (change := fun t => { t with randomInputs := rs, draws := n }) ?fault ?effect fun _ => rfl
  case fault => cases i <;> rfl
  case effect =>
    cases i with
    | rnd x kk => exact absurd rfl (hi x kk)
    | ldVxK x => simp only [effectOf]; cases keyPickWith Config.keyChoice s.keys <;> rfl
    | ldVxMem x => exact effectOf_ldVxMem_congr x rfl rfl rfl rfl
    | _ => rfl

end Sys2Proof.Machine
end

section
/-! Memory and the loader: what a canonical memory's reads determine (spec/20_memory.md), the reset values
(spec/10_state.md R23) and the copied image (spec/70_reset_and_hazards.md R165). -/

namespace Sys2Proof.Machine

/-! ### Canonical memories -/

theorem Memory.wfFrom_cons {lo k : Nat} {w : Byte} {m : Memory} (h : Memory.wfFrom lo ((k, w) :: m) = true) :
    w ≠ Memory.background k ∧ Memory.wfFrom (k + 1) m = true ∧ Memory.wfFrom k ((k, w) :: m) = true := by
  simp only [Memory.wfFrom, Bool.and_eq_true, decide_eq_true_eq, Bool.not_eq_true', decide_eq_false_iff_not] at h ⊢
  obtain ⟨⟨⟨-, hlt⟩, hne⟩, htail⟩ := h
  exact ⟨hne, htail, ⟨⟨le_refl k, hlt⟩, hne⟩, htail⟩

/-- A listed value is never what the address would read as unlisted. -/
theorem Memory.find_ne_background {m : Memory} {lo a : Nat} (h : Memory.wfFrom lo m = true) :
    m.find a ≠ some (Memory.background a) := by
  induction m generalizing lo with
  | nil => simp [Memory.find]
  | cons c m ih =>
    obtain ⟨k, w⟩ := c
    obtain ⟨hne, htail, -⟩ := Memory.wfFrom_cons h
    rw [Memory.find]
    split
    case isTrue hk => subst hk; simpa using hne
    case isFalse => exact ih htail

/-- Canonical memories that read alike at an address list it alike. -/
theorem Memory.find_eq_of_read_eq {m m' : Memory} (h : m.wf = true) (h' : m'.wf = true) {a : Nat}
    (hread : m.read a = m'.read a) : m.find a = m'.find a := by
  have hne := Memory.find_ne_background (a := a) h
  have hne' := Memory.find_ne_background (a := a) h'
  unfold Memory.read at hread
  cases hf : m.find a <;> cases hf' : m'.find a <;> simp_all

/-- Of two memories that list alike, neither starts above the other. -/
theorem Memory.head_le_of_find_eq {k k' : Nat} {w w' : Byte} {m m' : Memory}
    (h' : Memory.wfFrom k' ((k', w') :: m') = true)
    (hfind : ∀ a, Memory.find ((k, w) :: m) a = Memory.find ((k', w') :: m') a) : k' ≤ k := by
  by_contra hlt
  have hk := hfind k
  rw [Memory.find_none_below _ _ _ h' (by omega)] at hk
  simp [Memory.find] at hk

/-- The rising order of addresses makes the list the only one that lists so. -/
theorem Memory.eq_of_find_eq {m m' : Memory} {lo lo' : Nat} (h : Memory.wfFrom lo m = true)
    (h' : Memory.wfFrom lo' m' = true) (hfind : ∀ a, m.find a = m'.find a) : m = m' := by
  induction m generalizing lo m' lo' with
  | nil =>
    cases m' with
    | nil => rfl
    | cons c' m' => simpa [Memory.find] using hfind c'.1
  | cons c m ih =>
    cases m' with
    | nil => simpa [Memory.find] using hfind c.1
    | cons c' m' =>
      obtain ⟨k, w⟩ := c
      obtain ⟨k', w'⟩ := c'
      obtain ⟨-, htail, hhead⟩ := Memory.wfFrom_cons h
      obtain ⟨-, htail', hhead'⟩ := Memory.wfFrom_cons h'
      obtain rfl : k = k' := le_antisymm
        (Memory.head_le_of_find_eq hhead fun a => (hfind a).symm) (Memory.head_le_of_find_eq hhead' hfind)
      obtain rfl : w = w' := by simpa [Memory.find] using hfind k
      rw [ih htail htail' fun a => ?_]
      by_cases ha : a = k
      · rw [Memory.find_none_below _ _ _ htail (by omega), Memory.find_none_below _ _ _ htail' (by omega)]
      · simpa [Memory.find, ha] using hfind a

/-- Settles O17: canonical memories that read alike list alike, and so are equal. -/
theorem canonicalMemoryIsDeterminedByReads : Obligations.CanonicalMemoryIsDeterminedByReads :=
  fun _ _ h h' hread => Memory.eq_of_find_eq h h' fun a => Memory.find_eq_of_read_eq h h' (hread a)

/-! ### Reset -/

theorem Memory.background_font (k : Fin 80) : Memory.background k.val = Config.font[k] := dif_pos k.isLt

theorem Memory.background_above {a : Nat} (h : 80 ≤ a) : Memory.background a = 0 := dif_neg (by omega)

/-- Settles O15: the reset memory lists nothing, the reset display is the cleared one, and the rest is as written. -/
theorem resetLeavesTheListedValues : Obligations.ResetLeavesTheListedValues := by
  refine ⟨?_, rfl, rfl, rfl, ?_, rfl, rfl, rfl, Memory.background_font, fun _ => Memory.background_above,
    Display.pixel_clear, fun _ => ⟨rfl, rfl⟩⟩
  · simp [State.reset]
  · simp [State.reset]

/-! ### The loader -/

/-- Settles O16: the loader writes the image's bytes at 0x200, or nothing. -/
theorem loaderCopiesOrFails : Obligations.LoaderCopiesOrFails := by
  intro image s
  refine ⟨State.load_long image s, fun hfits => ⟨_, State.load_fits image s hfits, rfl, fun k hk => ?copied,
    fun a ha => ?kept⟩⟩
  case copied => exact Memory.read_writeBytes_inside image s.mem 0x200 k hk
  case kept => exact Memory.read_writeBytes_outside image s.mem 0x200 a ha

end Sys2Proof.Machine
end

section
/-! The cycle (spec/60_exceptions.md R130, R131, R145 to R147): what one step runs, when it faults and with what, the
audio pulse, and the invariant that every step keeps. -/

namespace Sys2Proof.Machine

/-! ### The end of a cycle -/

/-- Settles O7: read off the end of a running cycle in full. -/
theorem endOfCycleTicksAndPulses : Obligations.EndOfCycleTicksAndPulses := by
  intro t ht
  rw [endCycle_eq t ht]
  refine ⟨decTimer_toNat t.dt, decTimer_toNat t.st, rfl, fun k ks hq => ?queued, fun hq => ?empty, rfl⟩
  case queued => simp [hq]
  case empty => simp [hq]

/-! ### One step -/

/-- A running core that can fetch a recognised opcode executes it and ends its cycle. -/
theorem step_of_decodeWord {s : State} {i : Instr} (hs : s.status = .running) (hp : s.pc.toNat ≤ 0x0FFE)
    (hi : decodeWord (opcodeAt s) = some i) : step s = onNext endCycle (exec i s) := by
  rw [step_execWord s hs hp, execWord_some _ s i hi]

/-- Settles O6: the end of the cycle leaves a faulted state alone. -/
theorem stepRunsTheDecodedInstruction : Obligations.StepRunsTheDecodedInstruction := by
  intro s i hs hp hi
  obtain ⟨t, hexec, -⟩ := exec_outcome i s
  have hstep : step s = .next (endCycle t) := by rw [step_of_decodeWord hs hp hi, hexec]; rfl
  refine ⟨t, hexec, fun _ => hstep, fun ht => ?faulted⟩
  cases hst : t.status with
  | running => exact absurd hst ht
  | faulted f => rwa [endCycle_faulted t f hst] at hstep

/-- Settles O10: the execute step of an unrecognised opcode, then the end of the cycle. -/
theorem unrecognisedOpcodeIsSteppedOver : Obligations.UnrecognisedOpcodeIsSteppedOver := by
  intro s hs hp hnone
  rw [step_execWord s hs hp, execWord_none _ s hnone]; rfl

/-- The execute step answers a next state, keeping STATUS or raising a fatal fault and changing nothing else. -/
theorem execWord_outcome (op : Word) (s : State) :
    ∃ t, execWord op s = .next t ∧ (t.status = s.status ∨ ∃ f, t = { s with status := .faulted f }) := by
  cases hop : decodeWord op with
  | some i => rw [execWord_some op s i hop]; exact exec_outcome i s
  | none => exact ⟨_, execWord_none op s hop, .inl rfl⟩

/-- Settles O12: a faulted core stays, a core that cannot fetch faults, and every execute step answers a state. -/
theorem everyStepAnswersANextState : Obligations.EveryStepAnswersANextState := by
  intro s
  cases hs : s.status with
  | faulted f => exact ⟨s, step_faulted s f hs⟩
  | running =>
    by_cases hp : s.pc.toNat ≤ 0x0FFE
    · obtain ⟨t, hexec, -⟩ := execWord_outcome (opcodeAt s) s
      exact ⟨endCycle t, by rw [step_execWord s hs hp, hexec]; rfl⟩
    · exact ⟨_, step_fetch_fault s hs (by omega)⟩

theorem core_run_succ {s t : State} (h : step s = .next t) (n : Nat) : core.run (n + 1) s = core.run n t := by
  have hstep : core.step s = .next t := h
  simp only [Host.Core.run, hstep]

/-- Settles O11, by induction on the number of cycle requests. -/
theorem faultedCoreStaysFrozen : Obligations.FaultedCoreStaysFrozen := by
  intro n s f hf
  induction n with
  | zero => rfl
  | succ n ih =>
    exact (core_run_succ (step_faulted s f hf) n).trans ih

/-! ### Fatal faults -/

/-- Settles O13: a fetch fault and a raised fault both set STATUS alone, and the rest of the cycle is abandoned. -/
theorem fatalFaultsArePrecise : Obligations.FatalFaultsArePrecise := by
  intro s t f hs hstep ht
  obtain ⟨g, hg, -⟩ | ⟨-, -, rfl⟩ | ⟨-, -, u, hexec, rfl⟩ := step_cases hstep
  case inl => cases hs.symm.trans hg
  case inr.inl => cases ht; rfl
  case inr.inr =>
    rw [endCycle_status] at ht
    obtain ⟨v, hv, hout⟩ := execWord_outcome (opcodeAt s) s
    obtain rfl : v = u := by rw [hexec] at hv; injection hv with hv; exact hv.symm
    obtain hkept | ⟨g, rfl⟩ := hout
    · rw [hkept, hs] at ht; cases ht
    · cases ht; rfl

/-- A step of a running core raises what the fetch or the decoded instruction raises. -/
theorem step_faults_iff {s : State} (hs : s.status = .running) (f : FatalFault) :
    (∃ t, step s = .next t ∧ t.status = .faulted f) ↔
      (0x0FFE < s.pc.toNat ∧ f = .fetchOutOfRange s.pc) ∨
      (s.pc.toNat ≤ 0x0FFE ∧ ∃ i, decodeWord (opcodeAt s) = some i ∧ faultOf i s = some f) := by
  constructor
  · rintro ⟨t, hstep, ht⟩
    obtain ⟨g, hg, -⟩ | ⟨-, hp, rfl⟩ | ⟨-, hp, u, hexec, rfl⟩ := step_cases hstep
    case inl => cases hs.symm.trans hg
    case inr.inl => cases ht; exact .inl ⟨hp, rfl⟩
    case inr.inr =>
      rw [endCycle_status] at ht
      refine .inr ⟨hp, ?_⟩
      cases hi : decodeWord (opcodeAt s) with
      | none =>
        rw [execWord_none _ s hi] at hexec
        cases hexec; cases hs.symm.trans ht
      | some i =>
        rw [execWord_some _ s i hi] at hexec
        obtain ⟨g, hg, rfl⟩ | ⟨-, rfl⟩ := exec_cases hexec
        · cases ht; exact ⟨i, rfl, hg⟩
        · rw [effectOf_status, hs] at ht; cases ht
  · rintro (⟨hp, rfl⟩ | ⟨hp, i, hi, hf⟩)
    · exact ⟨_, step_fetch_fault s hs hp, rfl⟩
    · exact ⟨_, by rw [step_of_decodeWord hs hp hi, exec_of_faultOf_some hf]; rfl, by rw [endCycle_status]⟩

/-- Settles O14: a step raises what the fetch or the decoded instruction raises, and the fault conditions of the
instructions are those of the table. -/
theorem fatalFaultsHaveExactlyTheListedCauses : Obligations.FatalFaultsHaveExactlyTheListedCauses := by
  intro s f hs
  rw [step_faults_iff hs]
  cases f with
  | fetchOutOfRange p =>
    simp only [faultOf_eq_fetchOutOfRange, FaultCause, FatalFault.fetchOutOfRange.injEq, and_false, exists_false,
      or_false]
    exact and_comm
  | stackOverflow p =>
    simp only [faultOf_eq_stackOverflow, FaultCause, reduceCtorEq, and_false, false_or]
    constructor
    · rintro ⟨hp, i, hi, ⟨nnn, rfl⟩, hsp, rfl⟩; exact ⟨rfl, hp, hsp, nnn, hi⟩
    · rintro ⟨rfl, hp, hsp, nnn, hi⟩; exact ⟨hp, _, hi, ⟨nnn, rfl⟩, hsp, rfl⟩
  | stackUnderflow p =>
    simp only [faultOf_eq_stackUnderflow, FaultCause, reduceCtorEq, and_false, false_or]
    constructor
    · rintro ⟨hp, i, hi, rfl, hsp, rfl⟩; exact ⟨rfl, hp, hsp, hi⟩
    · rintro ⟨rfl, hp, hsp, hi⟩; exact ⟨hp, _, hi, rfl, hsp, rfl⟩
  | keyIndexOutOfRange w p =>
    simp only [faultOf_eq_keyIndexOutOfRange, FaultCause, reduceCtorEq, and_false, false_or]
    constructor
    · rintro ⟨hp, i, hi, x, rfl | rfl, hw, hgt, rfl⟩
      · exact ⟨rfl, hp, x, .inl hi, hw, hgt⟩
      · exact ⟨rfl, hp, x, .inr hi, hw, hgt⟩
    · rintro ⟨rfl, hp, x, hi | hi, hw, hgt⟩
      · exact ⟨hp, _, hi, x, .inl rfl, hw, hgt, rfl⟩
      · exact ⟨hp, _, hi, x, .inr rfl, hw, hgt, rfl⟩
  | memoryOutOfRange a acc =>
    cases acc with
    | read =>
      simp only [faultOf_eq_memoryOutOfRange_read, FaultCause, reduceCtorEq, and_false, false_or]
      constructor
      · rintro ⟨hp, i, hi, ha, ⟨x, rfl, hx⟩ | ⟨x, y, n, rfl, hn⟩⟩
        · exact ⟨ha, hp, .inl ⟨x, hi, hx⟩⟩
        · exact ⟨ha, hp, .inr ⟨x, y, n, hi, hn⟩⟩
      · rintro ⟨ha, hp, ⟨x, hi, hx⟩ | ⟨x, y, n, hi, hn⟩⟩
        · exact ⟨hp, _, hi, ha, .inl ⟨x, rfl, hx⟩⟩
        · exact ⟨hp, _, hi, ha, .inr ⟨x, y, n, rfl, hn⟩⟩
    | write =>
      simp only [faultOf_eq_memoryOutOfRange_write, FaultCause, reduceCtorEq, and_false, false_or]
      constructor
      · rintro ⟨hp, i, hi, ha, x, ⟨rfl, hx⟩ | ⟨rfl, hx⟩⟩
        · exact ⟨ha, hp, x, .inl ⟨hi, hx⟩⟩
        · exact ⟨ha, hp, x, .inr ⟨hi, hx⟩⟩
      · rintro ⟨ha, hp, x, ⟨hi, hx⟩ | ⟨hi, hx⟩⟩
        · exact ⟨hp, _, hi, ha, x, .inl ⟨rfl, hx⟩⟩
        · exact ⟨hp, _, hi, ha, x, .inr ⟨rfl, hx⟩⟩

/-! ### The audio pulse -/

/-- The execute step emits no pulse: an instruction emits nothing, an unrecognised opcode its report. -/
theorem execWord_audio_count {op : Word} {s t : State} (h : execWord op s = .next t) :
    t.outputs.count .audioTrigger = s.outputs.count .audioTrigger := by
  cases hop : decodeWord op with
  | some i =>
    rw [execWord_some op s i hop] at h
    obtain ⟨-, -, -, -, -, -, -, -, -, -, -, hout⟩ := specialStateChangesOnlyByItsInstructions i s t h
    rw [hout]
  | none =>
    rw [execWord_none op s hop] at h
    cases h
    exact List.count_cons_of_ne (by simp)

/-- Settles O9: a faulting cycle keeps the events, and of a running cycle only the end emits a pulse. -/
theorem audioPulsesExactlyWhenSoundTimerEnds : Obligations.AudioPulsesExactlyWhenSoundTimerEnds := by
  intro s t hs hstep
  refine ⟨fun ht => ?faulted, fun ht => ?running⟩
  case faulted =>
    cases hf : t.status with
    | running => exact absurd hf ht
    | faulted f => rw [fatalFaultsArePrecise s t f hs hstep hf]
  case running =>
    obtain ⟨u, hexec, hu, rfl⟩ := step_to_running hs hstep ht
    refine ⟨u, hexec, ?_⟩
    rw [endCycle_eq u hu, ← execWord_audio_count hexec]
    by_cases hst : u.st = 1#8 <;> simp [hst]

/-! ### The invariant -/

/-- Settles O18: reset lists no memory, uses no stack entry and has raised nothing. -/
theorem invariantHoldsAtReset : Obligations.InvariantHoldsAtReset := by
  refine ⟨Memory.wf_nil, ?_, fun k hk => ?_, trivial⟩
  · simp [State.reset]
  · simp [State.reset] at hk

/-- What a fault records is true of the state it freezes. -/
theorem faultInfoHolds_of_faultOf {i : Instr} {s : State} {f : FatalFault} (h : faultOf i s = some f) :
    FaultInfoHolds { s with status := .faulted f } := by
  cases f with
  | stackOverflow p => obtain ⟨-, hsp, hp⟩ := (faultOf_eq_stackOverflow i s p).1 h; exact ⟨hp, hsp⟩
  | stackUnderflow p => obtain ⟨-, hsp, hp⟩ := (faultOf_eq_stackUnderflow i s p).1 h; exact ⟨hp, hsp⟩
  | fetchOutOfRange p => exact absurd h (faultOf_eq_fetchOutOfRange i s p)
  | keyIndexOutOfRange w p =>
    obtain ⟨-, -, -, hw, hp⟩ := (faultOf_eq_keyIndexOutOfRange i s w p).1 h; exact ⟨hp, hw⟩
  | memoryOutOfRange a acc =>
    cases acc with
    | read => exact ((faultOf_eq_memoryOutOfRange_read i s a).1 h).1
    | write => exact ((faultOf_eq_memoryOutOfRange_write i s a).1 h).1

/-- Only the two stores write memory, and what they write lies within it. -/
theorem effectOf_mem_wf {i : Instr} {s : State} (hno : faultOf i s = none) (h : s.mem.wf = true) :
    (effectOf i s).mem.wf = true := by
  by_cases hmem : (effectOf i s).mem = s.mem
  · rwa [hmem]
  · have hexec := exec_of_faultOf_none hno
    obtain ⟨-, -, -, -, -, hstore, -⟩ := specialStateChangesOnlyByItsInstructions i s _ hexec
    obtain ⟨x, rfl | rfl⟩ := hstore hmem
    all_goals
      rw [faultOf, Option.map_eq_none_iff, rangeViolation_none] at hno
      refine Memory.wf_writeBytes _ _ _ ?_ h
    · rw [bcdDigits_length]; omega
    · rw [State.blockRegs_length]; omega

/-- The unmasked sum of Bnnn stays far below 65536. -/
theorem jpV0_target_toNat (nnn : Addr12) (b : Byte) : (zextAddr nnn + zextByte b).toNat = nnn.toNat + b.toNat := by
  have := nnn.isLt
  have := b.isLt
  rw [BitVec.toNat_add, zextAddr_toNat, zextByte_toNat]; omega

/-- After an instruction fetched within memory, pc is within the bound of spec/10_state.md R14. -/
theorem effectOf_pc_le {i : Instr} {s : State} (hs : s.status = .running) (hno : faultOf i s = none)
    (hp : s.pc.toNat ≤ 0x0FFE) (hstack : ∀ k : Fin 16, k.val < s.sp.val → s.stack[k].toNat ≤ 0x0FFE) :
    (effectOf i s).pc.toNat ≤ 0x10FE := by
  have hpc := (pcAdvancesByTwoUnlessTransferring i s _ hs (exec_of_faultOf_none hno)).2 (by rw [effectOf_status, hs])
  cases i with
  | ret =>
    have hsp : s.sp.val ≠ 0 := by simpa [faultOf] using hno
    have hentry : s.stack[s.sp.val - 1].toNat ≤ 0x0FFE := hstack ⟨s.sp.val - 1, by omega⟩ (by simp; omega)
    show (s.stack[s.sp.val - 1] + 2).toNat ≤ 0x10FE
    bv_omega
  | jp nnn | call nnn =>
    show (zextAddr nnn).toNat ≤ 0x10FE
    rw [zextAddr_toNat]; omega
  | jpV0 nnn =>
    show (zextAddr nnn + zextByte s.v[(0 : Reg)]).toNat ≤ 0x10FE
    rw [jpV0_target_toNat]; omega
  | seImm | sneImm | seReg | sneReg | skp | sknp | ldVxK => obtain h | h := hpc <;> rw [h] <;> bv_omega
  | _ => rw [hpc]; bv_omega

/-- Every stack entry in use after an instruction fetched within memory is the address of a fetched call. -/
theorem effectOf_stack_le {i : Instr} {s : State} (hno : faultOf i s = none) (hp : s.pc.toNat ≤ 0x0FFE)
    (hstack : ∀ k : Fin 16, k.val < s.sp.val → s.stack[k].toNat ≤ 0x0FFE) (k : Fin 16)
    (hk : k.val < (effectOf i s).sp.val) : (effectOf i s).stack[k].toNat ≤ 0x0FFE := by
  obtain ⟨-, -, hsp, hkept, -⟩ := specialStateChangesOnlyByItsInstructions i s _ (exec_of_faultOf_none hno)
  by_cases hcall : ∃ nnn, i = .call nnn
  case pos =>
    obtain ⟨nnn, rfl⟩ := hcall
    have hroom : s.sp.val < 16 := by
      have : s.sp.val ≠ 16 := by simpa [faultOf] using hno
      omega
    rw [effectOf_call_room hroom] at hk ⊢
    simp only [Fin.getElem_fin, Vector.getElem_set]
    split
    case isTrue => exact hp
    case isFalse h => exact hstack k (by simp at hk; omega)
  case neg =>
    have hle : (effectOf i s).sp.val ≤ s.sp.val := by
      by_cases hret : i = .ret
      · subst hret; exact Nat.sub_le _ _
      · rw [not_not.1 (mt hsp (not_or.2 ⟨hret, hcall⟩))]
    rw [not_not.1 (mt hkept hcall)]
    exact hstack k (by omega)

/-- The end of a cycle touches nothing the invariant speaks of. -/
theorem inv_endCycle {s : State} (h : Inv s) : Inv (endCycle s) := by
  cases hs : s.status with
  | faulted f => rwa [endCycle_faulted s f hs]
  | running =>
    obtain ⟨hwf, hpc, hstack, -⟩ := h
    rw [endCycle_eq s hs]
    exact ⟨hwf, hpc, hstack, by simp [FaultInfoHolds, hs]⟩

/-- The execute step of a fetched opcode keeps the invariant. -/
theorem inv_execWord {op : Word} {s t : State} (hs : s.status = .running) (hp : s.pc.toNat ≤ 0x0FFE) (h : Inv s)
    (hexec : execWord op s = .next t) : Inv t := by
  obtain ⟨hwf, hpc, hstack, hinfo⟩ := h
  cases hop : decodeWord op with
  | none =>
    rw [execWord_none op s hop] at hexec
    cases hexec
    exact ⟨hwf, by show (s.pc + 2).toNat ≤ 0x10FE; bv_omega, hstack, by simp [FaultInfoHolds, hs]⟩
  | some i =>
    rw [execWord_some op s i hop] at hexec
    obtain ⟨f, hf, rfl⟩ | ⟨hno, rfl⟩ := exec_cases hexec
    · exact ⟨hwf, hpc, hstack, faultInfoHolds_of_faultOf hf⟩
    · refine ⟨effectOf_mem_wf hno hwf, effectOf_pc_le hs hno hp hstack, effectOf_stack_le hno hp hstack, ?_⟩
      simp [FaultInfoHolds, effectOf_status, hs]

/-- Settles O19: each outcome of a step, the frozen state, the fetch fault and the executed opcode, keeps each part. -/
theorem everyStepKeepsTheInvariant : Obligations.EveryStepKeepsTheInvariant := by
  intro s t h hstep
  obtain ⟨f, -, rfl⟩ | ⟨-, hp, rfl⟩ | ⟨hs, hp, u, hexec, rfl⟩ := step_cases hstep
  case inl => exact h
  case inr.inl =>
    obtain ⟨hwf, hpc, hstack, -⟩ := h
    exact ⟨hwf, hpc, hstack, rfl, hp⟩
  case inr.inr => exact inv_endCycle (inv_execWord hs hp h hexec)

/-! ### A finished program -/

/-- The final jump leads to itself. -/
theorem decodeWord_of_finished {s : State} (h : Finished s) :
    ∃ nnn, decodeWord (opcodeAt s) = some (.jp nnn) ∧ zextAddr nnn = s.pc := by
  obtain ⟨-, hp, hop⟩ := h
  rw [Fetchable] at hp
  have hnat : (opcodeAt s).toNat = 0x1000 + s.pc.toNat := by rw [hop]; bv_omega
  refine ⟨nnnOf (opcodeAt s), decodeWord_pattern_1nnn ?_, ?_⟩
  · apply BitVec.eq_of_toNat_eq
    have h1000 : (0x1000 : Word).toNat = 0x1000 := rfl
    rw [and_F000_toNat, hnat, h1000]; omega
  · apply BitVec.eq_of_toNat_eq
    rw [zextAddr_toNat, nnnOf_toNat, hnat]; omega

/-- A cycle of a finished program is its end alone. -/
theorem step_of_finished {s : State} (h : Finished s) : step s = .next (endCycle s) := by
  obtain ⟨nnn, hdecode, hself⟩ := decodeWord_of_finished h
  obtain ⟨hs, hp, -⟩ := h
  rw [step_of_decodeWord hs hp hdecode, exec_jp, hself]; rfl

theorem finished_endCycle {s : State} (h : Finished s) : Finished (endCycle s) := by
  obtain ⟨hs, hp, hop⟩ := h
  rw [endCycle_eq s hs]
  exact ⟨hs, hp, hop⟩

/-- Settles O60, by induction on the number of cycles: each one is the end of a cycle, which ticks and keeps the program
finished. -/
theorem finishedProgramHoldsStill : Obligations.FinishedProgramHoldsStill := by
  intro n s h
  induction n generalizing s with
  | zero => exact ⟨s, rfl, rfl, rfl, h, rfl⟩
  | succ n ih =>
    obtain ⟨t, hrun, hdt, hst, hfin, hframe⟩ := ih (endCycle s) (finished_endCycle h)
    obtain ⟨htickDt, htickSt⟩ := endCycle_timers s h.1
    refine ⟨t, (core_run_succ (step_of_finished h) n).trans hrun, ?_, ?_, hfin, ?_⟩
    · rw [hdt, htickDt, decTimer_toNat]; omega
    · rw [hst, htickSt, decTimer_toNat]; omega
    · rw [endCycle_eq s h.1] at hframe; exact hframe

end Sys2Proof.Machine
end

section
/-! Control transfer and skips (spec/40_control.md): Bnnn, the call and its return, and the register skips. -/

namespace Sys2Proof.Machine

/-- Settles O26: the unmasked sum, and `setPc` changes nothing else (D33). -/
theorem jumpV0AddsV0 : Obligations.JumpV0AddsV0 :=
  fun nnn s => ⟨_, rfl, jpV0_target_toNat nnn _, onlyPc_setPc s _⟩

/-- Settles O27: the call with room, entry by entry. -/
theorem callPushesItsOwnAddress : Obligations.CallPushesItsOwnAddress := by
  intro nnn s hroom
  refine ⟨_, exec_call_room nnn s hroom, fun k => ?entries, rfl, zextAddr_toNat nnn, rfl, fun _ => rfl⟩
  case entries => simp only [Fin.getElem_fin, Vector.getElem_set, eq_comm]

/-- Settles O28: the return with an entry, whose index is SP less 1. -/
theorem returnPopsAndAddsTwo : Obligations.ReturnPopsAndAddsTwo := by
  intro s k hsp
  refine ⟨_, exec_ret_entry s (by omega), ?popped, ?lowered, rfl, fun _ => rfl⟩
  case popped => simp [hsp]
  case lowered => simp [hsp]

/-- Settles O29: the two refused stack operations. -/
theorem stackFaultsOnFullCallAndEmptyReturn : Obligations.StackFaultsOnFullCallAndEmptyReturn :=
  ⟨exec_call_full, exec_ret_empty⟩

/-- Settles O30: the return pops the entry the call pushed. -/
theorem returnContinuesAfterTheCall : Obligations.ReturnContinuesAfterTheCall := by
  intro nnn s t u hroom hcall hstack hsp
  obtain ⟨t', hcall', hpushed, hraised, -⟩ := callPushesItsOwnAddress nnn s hroom
  obtain rfl : t = t' := by rw [hcall] at hcall'; injection hcall'
  obtain ⟨w, hret, hpc, hlowered, -⟩ := returnPopsAndAddsTwo u ⟨s.sp.val, hroom⟩ (hsp ▸ hraised)
  refine ⟨w, hret, ?_, Fin.ext hlowered⟩
  rw [hpc, hstack, hpushed, if_pos rfl]

theorem exec_seReg (x y : Reg) (s : State) : exec (.seReg x y) s = .next (s.skipIf (s.v[x] == s.v[y])) := rfl

theorem exec_sneReg (x y : Reg) (s : State) : exec (.sneReg x y) s = .next (s.skipIf (s.v[x] != s.v[y])) := rfl

/-- Settles O32: both are a `skipIf` on the comparison of Vx with Vy. -/
theorem registerSkipsCompareAndSkip : Obligations.RegisterSkipsCompareAndSkip := by
  refine ⟨fun x y s => ⟨_, exec_seReg x y s, ?_, onlyPc_skipIf s _⟩,
    fun x y s => ⟨_, exec_sneReg x y s, ?_, onlyPc_skipIf s _⟩⟩
  all_goals by_cases h : s.v[x] = s.v[y] <;> simp [h]

end Sys2Proof.Machine
end

section
/-! Arithmetic, logic, shift and random (spec/41_alu.md): an instruction that writes one register, or a result and then
the flag, and advances pc. -/

namespace Sys2Proof.Machine

/-! ### A result and then the flag -/

theorem resultThenFlag_advance_result {x : Reg} (hx : x ≠ vF) (w : Byte) (f : Bool) (s : State) :
    (s.setResultThenFlag x w f).advance.v[x] = w :=
  (getElem_result_then_flag s.v x x w _).trans (by rw [if_neg hx, if_pos rfl])

theorem resultThenFlag_advance_flag (x : Reg) (w : Byte) (f : Bool) (s : State) :
    (s.setResultThenFlag x w f).advance.v[vF] = flagByte f :=
  (getElem_result_then_flag s.v x vF w _).trans (if_pos rfl)

theorem regsExcept_resultThenFlag_advance (x : Reg) (w : Byte) (f : Bool) (s : State) :
    RegsExcept [x, vF] s (s.setResultThenFlag x w f).advance := by
  intro r hr
  obtain ⟨hx, hflag⟩ : r ≠ x ∧ r ≠ vF := by simpa using hr
  exact (getElem_result_then_flag s.v x r w _).trans (by rw [if_neg hflag, if_neg hx])

theorem onlyRegsPc_resultThenFlag_advance (x : Reg) (w : Byte) (f : Bool) (s : State) :
    OnlyRegsPc s (s.setResultThenFlag x w f).advance := ⟨rfl, fun _ => rfl⟩

/-! ### One register -/

/-- Settles O34: the sum in eight bits, written by `setV` alone. -/
theorem addImmediateWrapsWithoutFlag : Obligations.AddImmediateWrapsWithoutFlag := by
  intro x kk s
  refine ⟨(s.setV x (s.v[x] + kk)).advance, rfl, ?sum, regsExcept_setV_advance x _ s, rfl,
    onlyRegsPc_setV_advance x _ s⟩
  case sum => rw [setV_advance_v_same, BitVec.toNat_add]

/-- Settles O35: each writes its value by `setV` alone, and the bits of the value are those of the operation. -/
theorem assignAndLogicWriteVxOnly : Obligations.AssignAndLogicWriteVxOnly := by
  intro x y s
  refine ⟨⟨(s.setV x s.v[y]).advance, rfl, setV_advance_v_same x _ s, regsExcept_setV_advance x _ s, rfl,
      onlyRegsPc_setV_advance x _ s⟩,
    ⟨(s.setV x (s.v[x] ||| s.v[y])).advance, rfl, fun b _ => ?or, regsExcept_setV_advance x _ s, rfl,
      onlyRegsPc_setV_advance x _ s⟩,
    ⟨(s.setV x (s.v[x] &&& s.v[y])).advance, rfl, fun b _ => ?and, regsExcept_setV_advance x _ s, rfl,
      onlyRegsPc_setV_advance x _ s⟩,
    ⟨(s.setV x (s.v[x] ^^^ s.v[y])).advance, rfl, fun b _ => ?xor, regsExcept_setV_advance x _ s, rfl,
      onlyRegsPc_setV_advance x _ s⟩⟩
  case or => rw [setV_advance_v_same, BitVec.getLsbD_or]
  case and => rw [setV_advance_v_same, BitVec.getLsbD_and]
  case xor => rw [setV_advance_v_same, BitVec.getLsbD_xor]

/-- Settles O39: the draw takes the queued byte or the free one, and its masked value is written by `setV` alone. -/
theorem randomMasksOneDraw : Obligations.RandomMasksOneDraw := by
  intro x kk s
  refine ⟨(s.drawRandom.2.setV x (s.drawRandom.1 &&& kk)).advance, s.drawRandom.1, rfl, fun q qs hq => ?queued,
    fun hq => ?free, ?drawn, setV_advance_v_same x _ _, ?others, ?advanced, ?frame, fun a => ?memory⟩
  case queued => exact ⟨s.drawRandom_queued q qs hq, by simp [State.drawRandom_state, hq]⟩
  case free => exact ⟨s.drawRandom_free hq, by simp [State.drawRandom_state, hq]⟩
  case drawn => simp [State.drawRandom_state]
  case others =>
    intro r hr
    rw [regsExcept_setV_advance x _ s.drawRandom.2 r hr, s.drawRandom_state]
  case advanced => simp [State.drawRandom_state]
  case frame => rw [s.drawRandom_state]; rfl
  case memory => simp [State.drawRandom_state]

/-! ### A register and the flag -/

/-- Settles O36: the sum in eight bits, and the carry of the unreduced one. -/
theorem addRegisterSetsSumThenCarry : Obligations.AddRegisterSetsSumThenCarry := by
  intro x y s
  refine ⟨(s.setResultThenFlag x (s.v[x] + s.v[y]) (addCarry s.v[x] s.v[y])).advance, rfl, fun hx => ?sum, ?carry,
    regsExcept_resultThenFlag_advance x _ _ s, rfl, onlyRegsPc_resultThenFlag_advance x _ _ s⟩
  case sum => rw [resultThenFlag_advance_result hx, BitVec.toNat_add]
  case carry => rw [resultThenFlag_advance_flag, addCarry, flagByte_decide]

theorem byte_sub_toNat (a b : Byte) : (a - b).toNat = (a.toNat + 256 - b.toNat) % 256 := by
  have := b.isLt
  rw [BitVec.toNat_sub]; omega

/-- Settles O37: the difference in eight bits, and no borrow where the minuend is at least the subtrahend. -/
theorem subtractsSetDifferenceThenNoBorrow : Obligations.SubtractsSetDifferenceThenNoBorrow := by
  refine ⟨fun x y s => ⟨(s.setResultThenFlag x (s.v[x] - s.v[y]) (noBorrow s.v[x] s.v[y])).advance, rfl,
      fun hx => ?subResult, ?subFlag, regsExcept_resultThenFlag_advance x _ _ s, rfl,
      onlyRegsPc_resultThenFlag_advance x _ _ s⟩,
    fun x y s => ⟨(s.setResultThenFlag x (s.v[y] - s.v[x]) (noBorrow s.v[y] s.v[x])).advance, rfl,
      fun hx => ?subnResult, ?subnFlag, regsExcept_resultThenFlag_advance x _ _ s, rfl,
      onlyRegsPc_resultThenFlag_advance x _ _ s⟩⟩
  case subResult | subnResult => rw [resultThenFlag_advance_result hx, byte_sub_toNat]
  case subFlag | subnFlag => rw [resultThenFlag_advance_flag, noBorrow, flagByte_decide]

theorem byte_shr_one_toNat (b : Byte) : (b >>> 1).toNat = b.toNat / 2 := by
  rw [BitVec.toNat_ushiftRight, Nat.shiftRight_eq_div_pow]

theorem byte_shl_one_toNat (b : Byte) : (b <<< 1).toNat = b.toNat * 2 % 256 := by
  rw [BitVec.toNat_shiftLeft, Nat.shiftLeft_eq]

/-- Settles O38: half and twice the shifted register, and the bit that leaves it. -/
theorem shiftsMoveOneBitIntoVf : Obligations.ShiftsMoveOneBitIntoVf := by
  intro x y z s hz
  have hreg : shiftReg Config.shiftSource x y = z := by rw [hz]; cases Config.shiftSource <;> rfl
  refine ⟨⟨(s.setResultThenFlag x (s.v[z] >>> 1) (shrOut s.v[z])).advance, ?shrExec, fun hx => ?shrResult, ?shrFlag,
      regsExcept_resultThenFlag_advance x _ _ s, rfl, onlyRegsPc_resultThenFlag_advance x _ _ s⟩,
    ⟨(s.setResultThenFlag x (s.v[z] <<< 1) (shlOut s.v[z])).advance, ?shlExec, fun hx => ?shlResult, ?shlFlag,
      regsExcept_resultThenFlag_advance x _ _ s, rfl, onlyRegsPc_resultThenFlag_advance x _ _ s⟩⟩
  case shrExec | shlExec => rw [← hreg]; rfl
  case shrResult => rw [resultThenFlag_advance_result hx, byte_shr_one_toNat]
  case shrFlag => rw [resultThenFlag_advance_flag, shrOut_toNat]
  case shlResult => rw [resultThenFlag_advance_result hx, byte_shl_one_toNat]
  case shlFlag => rw [resultThenFlag_advance_flag, shlOut_toNat]

end Sys2Proof.Machine
end

section
/-! The index register and memory (spec/42_index_memory.md): Fx1E, Fx29, the stores and the load, and what fetch sees of
a store. -/

namespace Sys2Proof.Machine

/-! ### The index register -/

/-- Settles O41: the sum in sixteen bits, and the flag of the unreduced one, written last. -/
theorem addIndexSetsSumAndRangeFlag : Obligations.AddIndexSetsSumAndRangeFlag := by
  intro x s
  refine ⟨((s.setI (s.i + zextByte s.v[x])).setV vF (flagByte (indexOverflow s.i s.v[x]))).advance, rfl, ?sum, ?flag,
    regsExcept_setV_advance vF _ (s.setI _), rfl, rfl, fun _ => rfl⟩
  case sum => show (s.i + zextByte s.v[x]).toNat = _; rw [BitVec.toNat_add, zextByte_toNat]
  case flag => rw [setV_advance_v_same, indexOverflow, flagByte_decide]

/-- Settles O42: five times the whole byte fits sixteen bits. -/
theorem fontAddressIsFiveTimesVx : Obligations.FontAddressIsFiveTimesVx :=
  fun x s => ⟨_, rfl, glyphAddr_toNat s.v[x], rfl, onlyIndexPc_setI_advance _ s⟩

/-! ### Accesses within memory -/

theorem exec_ldB_inside {x : Reg} {s : State} (h : s.i.toNat + 2 ≤ 0x0FFF) :
    exec (.ldB x) s = .next (s.setMem (s.mem.writeBytes s.i.toNat (bcdDigits s.v[x]))).advance :=
  guardRange_inside _ _ _ _ _ (by omega)

theorem exec_ldMemVx_inside {x : Reg} {s : State} (h : s.i.toNat + x.val ≤ 0x0FFF) :
    exec (.ldMemVx x) s =
      .next ((s.setMem (s.mem.writeBytes s.i.toNat (s.blockRegs x))).advanceI x).advance :=
  guardRange_inside _ _ _ _ _ (by omega)

theorem exec_ldVxMem_inside {x : Reg} {s : State} (h : s.i.toNat + x.val ≤ 0x0FFF) :
    exec (.ldVxMem x) s = .next ((s.loadBlock x).advanceI x).advance :=
  guardRange_inside _ _ _ _ _ (by omega)

/-- A digit stored by Fx33, as a number. -/
theorem read_bcd (m : Memory) (a : Nat) (b : Byte) (k : Nat) (hk : k < 3) :
    ((m.writeBytes a (bcdDigits b)).read (a + k)).toNat =
      [b.toNat / 100, b.toNat / 10 % 10, b.toNat % 10][k] := by
  rw [Memory.read_writeBytes_inside _ _ _ _ (by rwa [bcdDigits_length])]
  simp only [← bcdDigits_toNat, List.getElem_map]

/-- Settles O43: the three digits where they are written, and every other address outside them. -/
theorem bcdStoresThreeDigits : Obligations.BcdStoresThreeDigits := by
  intro x s h
  refine ⟨_, exec_ldB_inside h, read_bcd s.mem _ s.v[x] 0 (by decide), read_bcd s.mem _ s.v[x] 1 (by decide),
    read_bcd s.mem _ s.v[x] 2 (by decide), fun a ha => ?outside, rfl, rfl⟩
  case outside => exact Memory.read_writeBytes_outside _ _ _ _ (by rw [bcdDigits_length]; omega)

/-- Settles O44: the registers where they are written, and every other address outside them. -/
theorem blockStoreWritesV0ToVx : Obligations.BlockStoreWritesV0ToVx := by
  intro x s h
  refine ⟨_, exec_ldMemVx_inside h, fun r hr => ?stored, fun a ha => ?outside, s.advanceI_toNat x h, rfl, rfl⟩
  case stored =>
    have hlen : r.val < (s.blockRegs x).length := by rw [s.blockRegs_length]; exact Nat.lt_succ_of_le hr
    exact (Memory.read_writeBytes_inside _ s.mem _ _ hlen).trans (s.blockRegs_getElem x r.val hlen)
  case outside => exact Memory.read_writeBytes_outside _ _ _ _ (by rw [s.blockRegs_length]; omega)

/-- Settles O45: the registers of the block are loaded, those above it kept. -/
theorem blockLoadReadsV0ToVx : Obligations.BlockLoadReadsV0ToVx := by
  intro x s h
  refine ⟨_, exec_ldVxMem_inside h, fun r hr => ?loaded, fun r hr => ?kept, s.advanceI_toNat x h, rfl, rfl,
    fun _ => rfl⟩
  case loaded => exact (s.getElem_loadBlock x r).trans (if_pos hr)
  case kept => exact (s.getElem_loadBlock x r).trans (if_neg (not_le.2 hr))

/-- Settles O46: the range check of each access, one address too far. -/
theorem outOfRangeAccessesFault : Obligations.OutOfRangeAccessesFault := by
  intro s
  exact ⟨fun x h => guardRange_outside _ _ _ _ _ (by omega) (by omega),
    fun x h => guardRange_outside _ _ _ _ _ (by omega) (by omega),
    fun x h => guardRange_outside _ _ _ _ _ (by omega) (by omega),
    fun x y n h0 h => guardRange_outside _ _ _ _ _ h0 (by omega)⟩

/-! ### A store and what reads it -/

/-- Settles O47: the load reads the addresses the store wrote. -/
theorem blockStoreThenLoadRestores : Obligations.BlockStoreThenLoadRestores := by
  intro x s t u h hstore hmem hi
  obtain ⟨t', hstore', hstored, -⟩ := blockStoreWritesV0ToVx x s h
  obtain rfl : t = t' := by rw [hstore] at hstore'; injection hstore'
  obtain ⟨w, hload, hloaded, -⟩ := blockLoadReadsV0ToVx x u (hi ▸ h)
  exact ⟨w, hload, fun r hr => by rw [hloaded r hr, hmem, hi, hstored r hr]⟩

/-- Settles O48: fetch reads two neighbouring addresses the store wrote. -/
theorem fetchSeesStoredBytes : Obligations.FetchSeesStoredBytes := by
  intro x s t p r q h hstore hq hrq hp
  obtain ⟨t', hstore', hstored, -⟩ := blockStoreWritesV0ToVx x s h
  obtain rfl : t = t' := by rw [hstore] at hstore'; injection hstore'
  have hqx : q.val ≤ x.val := hq
  have hr : r ≤ x := Fin.le_def.2 (by omega)
  rw [fetch_inside _ (by show p.toNat ≤ 0x0FFE; omega)]
  show Except.ok (t.mem.read p.toNat ++ t.mem.read (p.toNat + 1)) = _
  rw [hp, Nat.add_assoc, ← hrq, hstored r hr, hstored q hq]

end Sys2Proof.Machine
end

section
/-! Keys and timers (spec/44_keys_timers.md), and clearing the display (spec/43_display.md R110). -/

namespace Sys2Proof.Machine

/-- Settles O49: the cleared display has every pixel off. -/
theorem clearTurnsEveryPixelOff : Obligations.ClearTurnsEveryPixelOff :=
  fun _ => ⟨_, rfl, Display.pixel_clear, rfl, rfl, fun _ => rfl⟩

/-- Settles O55: both are a `skipIf` on the key Vx names. -/
theorem keySkipsTestTheKeyInVx : Obligations.KeySkipsTestTheKeyInVx := by
  intro x s h
  refine ⟨⟨_, exec_skp_key h, ?_, onlyPc_skipIf s _⟩, ⟨_, exec_sknp_key h, ?_, onlyPc_skipIf s _⟩⟩
  · rfl
  · cases hk : s.keys.getLsbD s.v[x].toNat <;> simp

/-- Settles O56: above 15 there is no key index. -/
theorem keyIndexAboveFifteenFaults : Obligations.KeyIndexAboveFifteenFaults :=
  fun _ _ h => ⟨exec_skp_above h, exec_sknp_above h⟩

theorem exec_ldVxK (x : Reg) (s : State) :
    exec (.ldVxK x) s = .next (s.storeKey x (keyPickWith Config.keyChoice s.keys)) := rfl

/-- Settles O57: KeyPick answers none where no key is pressed, and else a pressed key. -/
theorem keyWaitStoresAPressedKey : Obligations.KeyWaitStoresAPressedKey := by
  intro x s
  refine ⟨fun hnone => ?waits, fun ⟨k, hk⟩ => ?stores⟩
  case waits =>
    have hpick := (keyPickWith_none Config.keyChoice s.keys).2 fun k => hnone k.val k.isLt
    rw [exec_ldVxK, hpick]; rfl
  case stores =>
    cases hpick : keyPickWith Config.keyChoice s.keys with
    | none =>
      have hlt : k < 16 := BitVec.lt_of_getLsbD hk
      have hoff := (keyPickWith_none Config.keyChoice s.keys).1 hpick ⟨k, hlt⟩
      rw [hk] at hoff; cases hoff
    | some j =>
      have hj : (BitVec.ofNat 8 j.val).toNat = j.val := by
        rw [BitVec.toNat_ofNat]; omega
      refine ⟨(s.setV x (BitVec.ofNat 8 j.val)).advance, by rw [exec_ldVxK, hpick]; rfl, ?_, ?_,
        regsExcept_setV_advance x _ s, rfl, onlyRegsPc_setV_advance x _ s⟩
      · rw [setV_advance_v_same, hj]; omega
      · rw [setV_advance_v_same, hj]; exact keyPickWith_some _ _ _ hpick

/-- Settles O58: the timer is read before the end of the cycle. -/
theorem readDelayTimerIntoVx : Obligations.ReadDelayTimerIntoVx :=
  fun x s => ⟨(s.setV x s.dt).advance, rfl, setV_advance_v_same x _ s, regsExcept_setV_advance x _ s, rfl,
    onlyRegsPc_setV_advance x _ s⟩

/-- Settles O59: each timer is set to Vx, and the end of the cycle decrements it once. -/
theorem writeTimersFromVx : Obligations.WriteTimersFromVx := by
  intro x s
  refine ⟨⟨(s.setDt s.v[x]).advance, rfl, rfl, rfl, rfl, fun _ => rfl, fun hs => ?delay⟩,
    ⟨(s.setSt s.v[x]).advance, rfl, rfl, rfl, rfl, fun _ => rfl, fun hs => ?sound⟩⟩
  case delay =>
    obtain ⟨hdt, -⟩ := endCycle_timers (s.setDt s.v[x]).advance hs
    rw [hdt]; exact decTimer_toNat s.v[x]
  case sound =>
    obtain ⟨-, hst⟩ := endCycle_timers (s.setSt s.v[x]).advance hs
    rw [hst]; exact decTimer_toNat s.v[x]

end Sys2Proof.Machine
end

section
/-! Drawing (spec/43_display.md R111, R112): the whole draw in terms of the sprite's 1 bits, where no two of them reach
one pixel, and the draw that undoes itself. -/

namespace Sys2Proof.Machine

/-! ### A draw and the sprite's bits -/

/-- The coordinates a draw toggles are those under the sprite's 1 bits. -/
theorem State.mem_drawPixels_iff_spriteBit (s : State) (x y : Reg) (n : Nat) (c : Nat × Nat) :
    c ∈ s.drawPixels x y n ↔
      ∃ row col, spriteBit s n row col = true ∧ c = (s.v[x].toNat + col, s.v[y].toNat + row) := by
  simp only [State.mem_drawPixels, spriteBit, Bool.and_eq_true, decide_eq_true_eq, and_assoc]

/-- Whether a 1 bit of the sprite reaches a pixel under a DisplayMap. -/
def Reaches (dm : DisplayMap) (x y : Reg) (n : Nat) (s : State) (p : Config.Pixel) : Prop :=
  ∃ row col, spriteBit s n row col = true ∧ dm (s.v[x].toNat + col) (s.v[y].toNat + row) = some p

theorem exists_drawPixels_iff_reaches (dm : DisplayMap) (x y : Reg) (n : Nat) (s : State) (p : Config.Pixel) :
    (∃ c ∈ s.drawPixels x y n, dm c.1 c.2 = some p) ↔ Reaches dm x y n s p := by
  constructor
  · rintro ⟨c, hc, hp⟩
    obtain ⟨row, col, hbit, rfl⟩ := (s.mem_drawPixels_iff_spriteBit x y n c).1 hc
    exact ⟨row, col, hbit, hp⟩
  · rintro ⟨row, col, hbit, hp⟩
    exact ⟨_, (s.mem_drawPixels_iff_spriteBit x y n _).2 ⟨row, col, hbit, rfl⟩, hp⟩

/-- Where no two toggles reach one pixel, a draw inverts exactly the reached pixels. -/
theorem drawWith_pixel {dm : DisplayMap} {x y : Reg} {n : Nat} {s : State} (h : Apart dm (s.drawPixels x y n))
    (p : Config.Pixel) :
    (drawWith dm x y n s).fb.pixel p = true ↔ ¬ (s.fb.pixel p = true ↔ Reaches dm x y n s p) := by
  rw [drawWith_fb, pixel_toggleAll_apart dm _ h, exists_drawPixels_iff_reaches]

/-- Where no two toggles reach one pixel, VF tells whether a reached pixel was on. -/
theorem drawWith_vF_eq_one {dm : DisplayMap} {x y : Reg} {n : Nat} {s : State}
    (h : Apart dm (s.drawPixels x y n)) :
    (drawWith dm x y n s).v[vF] = 1 ↔ ∃ p, Reaches dm x y n s p ∧ s.fb.pixel p = true := by
  rw [drawWith_vF, flagByte_eq_one, collision_toggleAll_apart dm _ h]
  simp only [← exists_drawPixels_iff_reaches, Bool.false_eq_true, false_or]
  constructor
  · rintro ⟨c, hc, p, hp, hon⟩; exact ⟨p, ⟨c, hc, hp⟩, hon⟩
  · rintro ⟨p, ⟨c, hc, hp⟩, hon⟩; exact ⟨c, hc, p, hp, hon⟩

theorem regsExcept_drawWith (dm : DisplayMap) (x y : Reg) (n : Nat) (s : State) :
    RegsExcept [vF] s (drawWith dm x y n s) := by
  intro r hr
  exact (getElem_set_reg s.v vF r _).trans (if_neg (mt List.mem_singleton.mpr hr))

theorem drawWith_vF_one_or_zero (dm : DisplayMap) (x y : Reg) (n : Nat) (s : State) :
    (drawWith dm x y n s).v[vF] = 1 ∨ (drawWith dm x y n s).v[vF] = 0 := by
  rw [drawWith_vF]; exact flagByte_zero_or_one _

theorem exec_drw_inside {x y : Reg} {n : Nat} {s : State} (h : n = 0 ∨ s.i.toNat + n - 1 ≤ 0x0FFF) :
    exec (.drw x y n) s = .next (drawWith displayMap x y n s) :=
  guardRange_inside _ _ _ _ _ (by omega)

/-- Settles O51: a sprite within memory is drawn, and one of no rows toggles nothing. -/
theorem drawCompletesAnywhere : Obligations.DrawCompletesAnywhere := by
  intro x y n s h
  refine ⟨_, exec_drw_inside h, rfl, fun h0 => ?_, drawWith_vF_one_or_zero _ x y n s, regsExcept_drawWith _ x y n s,
    rfl, rfl, fun _ => rfl⟩
  subst h0
  exact ⟨rfl, drawWith_vF displayMap x y 0 s⟩

/-! ### The named maps -/

theorem apart_drawPixels_named {dm : DisplayMap} (hdm : dm = wrapMap ∨ dm = clipMap) {n : Nat} (hn : n ≤ 15)
    (x y : Reg) (s : State) : Apart dm (s.drawPixels x y n) := by
  apply apart_spritePixels
  simp only [Memory.length_readBytes]
  intro r hr c hc r' hr' c' hc' p hp hp'
  exact named_map_injective dm hdm _ _ n (by omega) r c r' c' hr hc hr' hc' p hp hp'

/-- Settles O52: under both maps no two bits of a sprite reach one pixel. -/
theorem drawUnderWrapAndClip : Obligations.DrawUnderWrapAndClip := by
  intro dm x y n s hdm hn
  have hapart := apart_drawPixels_named hdm hn x y s
  refine ⟨drawWith_pixel hapart, (drawWith_vF_eq_one hapart).trans ?_⟩
  constructor
  · rintro ⟨p, ⟨row, col, hbit, hp⟩, hon⟩; exact ⟨row, col, p, hbit, hp, hon⟩
  · rintro ⟨row, col, p, hbit, hp, hon⟩; exact ⟨p, ⟨row, col, hbit, hp⟩, hon⟩

/-- Settles O54: the second draw reaches the same pixels, and of these the first left on exactly those that were off. -/
theorem secondDrawCollidesIffFirstTurnedOn : Obligations.SecondDrawCollidesIffFirstTurnedOn := by
  rintro dm x y n s _ hdm hn rfl
  have hfirst := drawWith_pixel (apart_drawPixels_named hdm hn x y s)
  rw [drawWith_vF_eq_one (apart_drawPixels_named hdm hn x y _)]
  refine exists_congr fun p => ?_
  have hp := hfirst p
  show Reaches dm x y n s p ∧ (drawWith dm x y n s).fb.pixel p = true ↔ _
  rw [hp]
  cases s.fb.pixel p <;> simp

/-! ### Inside the grid -/

theorem displayMap_inside {x y : Nat} (hx : x < 64) (hy : y < 32) (p : Config.Pixel) :
    displayMap x y = some p ↔ p.1.val = x ∧ p.2.val = y := by
  rw [displayMap, displayMapWith_inside _ x y hx hy, Option.some.injEq, Prod.ext_iff, Fin.ext_iff, Fin.ext_iff]
  exact and_congr eq_comm eq_comm

theorem spriteBit_bounds {s : State} {n row col : Nat} (h : spriteBit s n row col = true) : row < n ∧ col < 8 := by
  simp only [spriteBit, Bool.and_eq_true, decide_eq_true_eq] at h
  exact h.1

/-- A sprite inside the grid reaches the pixels at its own coordinates. -/
theorem reaches_inside_iff {x y : Reg} {n : Nat} {s : State} (hx : s.v[x].toNat + 8 ≤ 64)
    (hy : s.v[y].toNat + n ≤ 32) (p : Config.Pixel) :
    Reaches displayMap x y n s p ↔ ∃ row col, spriteBit s n row col = true ∧
      p.1.val = s.v[x].toNat + col ∧ p.2.val = s.v[y].toNat + row := by
  refine exists_congr fun row => exists_congr fun col => and_congr_right fun hbit => ?_
  obtain ⟨hrow, hcol⟩ := spriteBit_bounds hbit
  exact displayMap_inside (by omega) (by omega) p

/-- The bit over a pixel is the one at the pixel's coordinates within the sprite. -/
theorem exists_bit_under_pixel (s : State) (n x0 y0 : Nat) (p : Config.Pixel) :
    (∃ row col, spriteBit s n row col = true ∧ p.1.val = x0 + col ∧ p.2.val = y0 + row) ↔
      (decide (x0 ≤ p.1.val) && decide (y0 ≤ p.2.val) && spriteBit s n (p.2.val - y0) (p.1.val - x0)) = true := by
  simp only [Bool.and_eq_true, decide_eq_true_eq]
  constructor
  · rintro ⟨row, col, hbit, hcol, hrow⟩
    rw [hcol, hrow, Nat.add_sub_cancel_left, Nat.add_sub_cancel_left]
    exact ⟨⟨Nat.le_add_right _ _, Nat.le_add_right _ _⟩, hbit⟩
  · rintro ⟨⟨hx, hy⟩, hbit⟩
    exact ⟨_, _, hbit, by omega, by omega⟩

theorem apart_drawPixels_inside {x y : Reg} {n : Nat} {s : State} (hx : s.v[x].toNat + 8 ≤ 64)
    (hy : s.v[y].toNat + n ≤ 32) : Apart displayMap (s.drawPixels x y n) := by
  apply apart_spritePixels
  simp only [Memory.length_readBytes, State.getV_eq]
  intro r hr c hc r' hr' c' hc' p hp hp'
  rw [displayMap_inside (by omega) (by omega)] at hp hp'
  omega

/-- Settles O50: inside the grid no two bits of a sprite reach one pixel, and the reached pixels are at the sprite's own
coordinates. -/
theorem drawInsideTheGridInvertsUnderOneBits : Obligations.DrawInsideTheGridInvertsUnderOneBits := by
  intro x y n s hx hy hmem
  have hapart := apart_drawPixels_inside hx hy
  refine ⟨_, exec_drw_inside hmem, fun p => ?pixels, drawWith_vF_one_or_zero _ x y n s,
    (drawWith_vF_eq_one hapart).trans ?collision, regsExcept_drawWith _ x y n s, rfl, rfl, fun _ => rfl⟩
  case pixels =>
    rw [Bool.eq_iff_iff, drawWith_pixel hapart p, reaches_inside_iff hx hy, exists_bit_under_pixel, bne_iff_ne]
    exact not_congr Bool.eq_iff_iff.symm
  case collision =>
    simp only [reaches_inside_iff hx hy]
    constructor
    · rintro ⟨p, ⟨row, col, hbit, hcol, hrow⟩, hon⟩; exact ⟨row, col, p, hbit, hcol, hrow, hon⟩
    · rintro ⟨row, col, p, hbit, hcol, hrow, hon⟩; exact ⟨p, ⟨row, col, hbit, hcol, hrow⟩, hon⟩

/-! ### Drawing twice -/

/-- The display after Dxyn, drawn or refused. -/
theorem exec_drw_fb {x y : Reg} {n : Nat} {s t : State} (h : exec (.drw x y n) s = .next t) :
    ((n = 0 ∨ s.i.toNat + n ≤ 0x1000) ∧
      t.fb = (toggleAll displayMap (s.drawPixels x y n) (s.fb, false)).1) ∨
    ((0 < n ∧ 0x1000 < s.i.toNat + n) ∧ t.fb = s.fb) := by
  obtain ⟨hin, rfl⟩ | ⟨h0, hout, rfl⟩ := guardRange_cases h
  · exact .inl ⟨hin, drawWith_fb displayMap x y n s⟩
  · exact .inr ⟨⟨h0, hout⟩, rfl⟩

/-- Settles O53: both draws toggle the same list, or both are refused. -/
theorem drawingTwiceRestoresTheDisplay : Obligations.DrawingTwiceRestoresTheDisplay := by
  intro x y n s t u hfirst hsecond
  obtain ⟨hin, ht⟩ | ⟨hout, ht⟩ := exec_drw_fb hfirst
  · obtain ⟨-, hu⟩ | ⟨hout, -⟩ := exec_drw_fb hsecond
    · rw [hu]
      show (toggleAll displayMap (s.drawPixels x y n) (t.fb, false)).1 = s.fb
      rw [ht, toggleAll_twice]
    · have : 0x1000 < s.i.toNat + n := hout.2
      omega
  · obtain ⟨hin, -⟩ | ⟨-, hu⟩ := exec_drw_fb hsecond
    · have : n = 0 ∨ s.i.toNat + n ≤ 0x1000 := hin
      omega
    · exact hu.trans ht

end Sys2Proof.Machine
end
